-- ==== Sys2Proof/Word.lean ====
section
/-! DEFINITION. The value types of the machine (00_scope.md R4, R10): bytes, 16-bit words, register and key numbers.
Every value is unsigned; bit 0 is the least significant bit. -/

namespace Sys2Proof

/-- A byte: a general register, a timer, a memory or display byte (R10). -/
abbrev Byte := BitVec 8

/-- A 16-bit word: `I`, `pc`, a stack slot, an instruction word (R4). -/
abbrev Word := BitVec 16

/-- A general register number, V0 to VF (10_state.md R20): a 4-bit field, so never out of range. -/
abbrev Reg := Fin 16

/-- A key code 0 to 15 (10_state.md R32). -/
abbrev Key := Fin 16

/-- VF, which doubles as the flag (10_state.md R21). -/
abbrev VF : Reg := 15

end Sys2Proof
end

