-- ==== Sys2Proof/Syntax.lean ====
section
/-! DEFINITION. The closed set of 35 operations (30_encoding.md R90), one constructor per row of the opcode table, in the
table's order. Operands are the fields of R82: `x`, `y` register numbers, `n` a 4-bit count, `nn` a byte, `nnn` 12 bits. -/

namespace Sys2Proof

/-- An instruction: the classified operation and its operands (R90). -/
inductive Instr where
  /-- 00E0 `CLS` -/
  | cls
  /-- 00EE `RET` -/
  | ret
  /-- 0NNN `SYS NNN`, every 0NNN word but 00E0 and 00EE (R84) -/
  | sys (nnn : BitVec 12)
  /-- 1NNN `JP NNN` -/
  | jp (nnn : BitVec 12)
  /-- 2NNN `CALL NNN` -/
  | call (nnn : BitVec 12)
  /-- 3XNN `SE VX, NN` -/
  | seImm (x : Reg) (nn : Byte)
  /-- 4XNN `SNE VX, NN` -/
  | sneImm (x : Reg) (nn : Byte)
  /-- 5XY0 `SE VX, VY` -/
  | seReg (x y : Reg)
  /-- 6XNN `LD VX, NN` -/
  | ldImm (x : Reg) (nn : Byte)
  /-- 7XNN `ADD VX, NN` -/
  | addImm (x : Reg) (nn : Byte)
  /-- 8XY0 `LD VX, VY` -/
  | ldReg (x y : Reg)
  /-- 8XY1 `OR VX, VY` -/
  | orReg (x y : Reg)
  /-- 8XY2 `AND VX, VY` -/
  | andReg (x y : Reg)
  /-- 8XY3 `XOR VX, VY` -/
  | xorReg (x y : Reg)
  /-- 8XY4 `ADD VX, VY` -/
  | addReg (x y : Reg)
  /-- 8XY5 `SUB VX, VY` -/
  | subReg (x y : Reg)
  /-- 8XY6 `SHR VX, VY` -/
  | shr (x y : Reg)
  /-- 8XY7 `SUBN VX, VY` -/
  | subn (x y : Reg)
  /-- 8XYE `SHL VX, VY` -/
  | shl (x y : Reg)
  /-- 9XY0 `SNE VX, VY` -/
  | sneReg (x y : Reg)
  /-- ANNN `LD I, NNN` -/
  | ldI (nnn : BitVec 12)
  /-- BNNN `JP V0, NNN` -/
  | jpV0 (nnn : BitVec 12)
  /-- CXNN `RND VX, NN` -/
  | rnd (x : Reg) (nn : Byte)
  /-- DXYN `DRW VX, VY, N` -/
  | drw (x y : Reg) (n : BitVec 4)
  /-- EX9E `SKP VX` -/
  | skp (x : Reg)
  /-- EXA1 `SKNP VX` -/
  | sknp (x : Reg)
  /-- FX07 `LD VX, DT` -/
  | ldVxDt (x : Reg)
  /-- FX0A `LD VX, K` -/
  | ldVxK (x : Reg)
  /-- FX15 `LD DT, VX` -/
  | ldDtVx (x : Reg)
  /-- FX18 `LD ST, VX` -/
  | ldStVx (x : Reg)
  /-- FX1E `ADD I, VX` -/
  | addI (x : Reg)
  /-- FX29 `LD F, VX` -/
  | ldF (x : Reg)
  /-- FX33 `LD B, VX` -/
  | ldB (x : Reg)
  /-- FX55 `LD [I], VX` -/
  | ldMemVx (x : Reg)
  /-- FX65 `LD VX, [I]` -/
  | ldVxMem (x : Reg)
  deriving DecidableEq, Repr

end Sys2Proof
end

