-- ==== Sys2Proof/Config.lean ====
section
/-! DEFINITION. The sizes the document fixes (00_scope.md R4) and the one free value of the machine: the host's random
byte. The spec's own parameters (R5) are taken at the values it takes; notes/assumptions names each. -/

namespace Sys2Proof

/-- MEM_SIZE: addresses 0x000 to 0xFFF (R4). -/
abbrev Config.memSize : Nat := 4096

/-- PROG_BASE: program entry, reset value of `pc`, address of the loaded image (R4). -/
abbrev Config.progBase : Nat := 0x200

/-- ROM_MAX: the longest image LOAD takes (R4, 70_reset_and_hazards.md R263). -/
abbrev Config.romMax : Nat := 3584

/-- DISP_W, the display's width in pixels (R4). -/
abbrev Config.dispW : Nat := 64

/-- DISP_H, the display's height in pixels (R4). -/
abbrev Config.dispH : Nat := 32

/-- The random input `rnd` of the n-th STEP whose input the host has not fixed (R7: "a free input (a draw) of each STEP").
A FREE VALUE: it has no body, so no proof can use a value of it (notes/assumptions/1.md). -/
opaque Config.hostRandom : Nat → Byte

end Sys2Proof
end

