-- ==== Sys2Proof/Machine/State.lean ====
section
/-! DEFINITION. The state of the machine (10_state.md R20 to R36), the outputs its transactions return, the host's pending
transactions, the reasons a step can stop, and the state after RESET (70_reset_and_hazards.md R260). -/

namespace Sys2Proof.Machine

/-- The 4096-byte memory (10_state.md R34), as the cells that differ from the reset contents: addresses strictly rising,
no cell equal to what an unlisted address reads as (`Memory.wf`, Machine/Memory.lean). -/
abbrev Memory := List Host.Cell

/-- The display, `display[0..255]`, 8 bytes a row (10_state.md R30). -/
abbrev Display := Vector Byte 256

/-- `last_key_released`: 18 values (10_state.md R33). -/
inductive Latch where
  /-- NONE: no pending release. -/
  | none
  /-- WANT_EVENT: an FX0A waits for a release. -/
  | wantEvent
  /-- The code of the key released while waiting. -/
  | key (k : Key)
  deriving DecidableEq, Repr

/-- The host's transactions (00_scope.md R7). -/
inductive Transaction where
  /-- RESET -/
  | reset
  /-- LOAD(rom) -/
  | load (rom : List Byte)
  /-- STEP(rnd) -/
  | step (rnd : Byte)
  /-- TICK -/
  | tick
  /-- KEY_DOWN(k) -/
  | keyDown (k : Key)
  /-- KEY_UP(k) -/
  | keyUp (k : Key)
  /-- DISPLAY_READ -/
  | displayRead
  deriving DecidableEq, Repr

/-- How far the boot order has come: RESET, then LOAD once, then STEPs (70_reset_and_hazards.md R264). -/
inductive BootPhase where
  /-- No LOAD and no STEP since RESET. -/
  | reset
  /-- LOAD done, no STEP yet. -/
  | loaded
  /-- A STEP has completed. -/
  | running
  deriving DecidableEq, Repr

/-- STEP's `instr` output: the raw bytes and the classified operation (00_scope.md R8, 60_exceptions.md R243). The
opcode tag is the constructor of `op`. -/
structure Fetched where
  b1 : Byte
  b2 : Byte
  op : Instr
  deriving DecidableEq, Repr

/-- The Machine (10_state.md R35) and, below it, its outputs and the host's side of the interface. -/
structure State where
  /-- V0 to VF (R20) -/
  v : Vector Byte 16
  /-- The index register I (R24) -/
  i : Word
  /-- The program counter (R25) -/
  pc : Word
  /-- The stack pointer, 0 to 16; 16 is empty (R27) -/
  sp : Fin 17
  /-- The call stack, a store of its own (R27) -/
  stack : Vector Word 16
  /-- The delay timer DT (R28) -/
  dt : Byte
  /-- The sound timer ST (R29) -/
  st : Byte
  /-- The display (R30) -/
  display : Display
  /-- Bit N = key N held (R32) -/
  keypad : BitVec 16
  /-- `last_key_released` (R33) -/
  latch : Latch
  /-- `memory` (R34) -/
  mem : Memory
  /-- Output: `redraw_needed` of the latest completed STEP (00_scope.md R8) -/
  redraw : Bool
  /-- Output: `instr` of the latest completed STEP (00_scope.md R8) -/
  instr : Option Fetched
  /-- Output: what the latest DISPLAY_READ returned (R31) -/
  shown : Option Display
  /-- The model's own: the host's next transactions, oldest first (00_scope.md R7, R9) -/
  inbox : List Transaction
  /-- The model's own: the random input of the STEP in progress (00_scope.md R7) -/
  rnd : Byte
  /-- The model's own: how many free random inputs have been drawn -/
  draws : Nat
  /-- The model's own: how far the boot order has come (70_reset_and_hazards.md R264) -/
  phase : BootPhase
  deriving DecidableEq, Repr

/-- The fatal conditions (60_exceptions.md R230). A STEP that raises one changes no state (R236). -/
inductive Fault where
  /-- Raised by the decode of any STEP and by SYS, with the word (R231); safe: an implementation that ignored the word
  would run on where the model stops. -/
  | unknownOpcode (w : Word)
  /-- Raised by 2NNN when `sp = 0` (R232); the document's own fatal condition, safe. -/
  | stackOverflow
  /-- Raised by 00EE when `sp = 16` (R233); the document's own fatal condition, safe. -/
  | stackUnderflow
  /-- Raised by a fetch, DXYN, FX33, FX55 or FX65 whose address is above 0xFFF, with the address (R234, decision D4);
  safe: the model stops where an implementation might wrap. -/
  | addressOutOfRange (addr : Nat)
  deriving DecidableEq, Repr

/-- What the model refuses. No instruction of this model is refused; the two LOAD refusals are decision D23's. -/
inductive Refusal where
  /-- An instruction with no meaning yet: raised in an arm of `exec` only. Safe. -/
  | notModelled (mnemonic : String)
  /-- Raised by LOAD of more than 3584 bytes, outside the host's contract (70_reset_and_hazards.md R263). Safe. -/
  | romTooLong
  /-- Raised by LOAD when a LOAD or a STEP has already happened since RESET (70_reset_and_hazards.md R264). Safe. -/
  | loadOutOfOrder
  deriving DecidableEq, Repr

/-- What a transaction answers. -/
abbrev Result := Host.Outcome State Fault Refusal

/-- The machine right after RESET (70_reset_and_hazards.md R260). Memory lists nothing: unlisted addresses read as the
font and zeros. -/
def State.reset : State where
  v := Vector.replicate 16 0
  i := 0
  pc := 0x200#16
  sp := 16
  stack := Vector.replicate 16 0
  dt := 0
  st := 0
  display := Vector.replicate 256 0
  keypad := 0
  latch := .none
  mem := []
  redraw := false
  instr := none
  shown := none
  inbox := []
  rnd := 0
  draws := 0
  phase := .reset

end Sys2Proof.Machine
end

