-- ==== Sys2Proof/Machine/Memory.lean ====
section
/-! DEFINITION. The memory store: the reset contents (70_reset_and_hazards.md R261, 10_state.md R34), reading and writing
one byte, the canonical form, and the block reads and writes the instructions are built from (20_memory.md R53). -/

namespace Sys2Proof.Machine

/-- The font table, glyphs 0 to F of 5 bytes, at 0x000 to 0x04F (70_reset_and_hazards.md R261). -/
def fontTable : List Byte :=
  [0xF0#8, 0x90#8, 0x90#8, 0x90#8, 0xF0#8] ++ [0x20#8, 0x60#8, 0x20#8, 0x20#8, 0x70#8]
  ++ [0xF0#8, 0x10#8, 0xF0#8, 0x80#8, 0xF0#8] ++ [0xF0#8, 0x10#8, 0xF0#8, 0x10#8, 0xF0#8]
  ++ [0x90#8, 0x90#8, 0xF0#8, 0x10#8, 0x10#8] ++ [0xF0#8, 0x80#8, 0xF0#8, 0x10#8, 0xF0#8]
  ++ [0xF0#8, 0x80#8, 0xF0#8, 0x90#8, 0xF0#8] ++ [0xF0#8, 0x10#8, 0x20#8, 0x40#8, 0x40#8]
  ++ [0xF0#8, 0x90#8, 0xF0#8, 0x90#8, 0xF0#8] ++ [0xF0#8, 0x90#8, 0xF0#8, 0x10#8, 0xF0#8]
  ++ [0xF0#8, 0x90#8, 0xF0#8, 0x90#8, 0x90#8] ++ [0xE0#8, 0x90#8, 0xE0#8, 0x90#8, 0xE0#8]
  ++ [0xF0#8, 0x80#8, 0x80#8, 0x80#8, 0xF0#8] ++ [0xE0#8, 0x90#8, 0x90#8, 0x90#8, 0xE0#8]
  ++ [0xF0#8, 0x80#8, 0xF0#8, 0x80#8, 0xF0#8] ++ [0xF0#8, 0x80#8, 0xF0#8, 0x80#8, 0x80#8]

/-- What an address nothing has written reads as: the font, then 0x00 (10_state.md R34, R261). -/
def Memory.unlisted (a : Nat) : Byte := fontTable.getD a 0

/-- The byte at an address: the last value stored, or the reset value (20_memory.md R53). -/
def Memory.read : Memory → Nat → Byte
  | [], a => Memory.unlisted a
  | (b, u) :: m, a => if a = b then u else Memory.read m a

/-- Store one byte, keeping the canonical form. -/
def Memory.write : Memory → Nat → Byte → Memory
  | [], a, x => if x = Memory.unlisted a then [] else [(a, x)]
  | (b, u) :: m, a, x =>
    if a < b then (if x = Memory.unlisted a then (b, u) :: m else (a, x) :: (b, u) :: m)
    else if a = b then (if x = Memory.unlisted a then m else (a, x) :: m)
    else (b, u) :: Memory.write m a x

/-- Every cell stands above `lo`, inside memory, and differs from what its address reads as unlisted. -/
def Memory.wfFrom : Nat → Memory → Bool
  | _, [] => true
  | lo, (a, x) :: m => decide (lo ≤ a) && decide (a < Config.memSize) && x != Memory.unlisted a && Memory.wfFrom (a + 1) m

/-- The canonical form: addresses strictly rising and below 4096, no cell equal to what an unlisted address reads as. -/
def Memory.wf (m : Memory) : Bool := Memory.wfFrom 0 m

/-- Store bytes at ascending addresses (20_memory.md R53). -/
def Memory.writeList : Memory → Nat → List Byte → Memory
  | m, _, [] => m
  | m, a, x :: xs => Memory.writeList (Memory.write m a x) (a + 1) xs

/-- The `n` bytes from `a` upward. -/
def Memory.readList (m : Memory) (a n : Nat) : List Byte := (List.range n).map fun k => Memory.read m (a + k)

end Sys2Proof.Machine
end

