-- ==== Sys2Proof/Machine/Ops.lean ====
section
/-! DEFINITION. The named operations over registers, memory, the call stack and the program counter, and what raising a
fatal condition does. -/

namespace Sys2Proof.Machine

/-! ### Fatal conditions (60_exceptions.md R230, R236) -/

/-- Abandon the transaction with a fatal condition: the machine's one exception entry. No state changes, there is no
handler, no saved register and no mode (R236); so there is no return from one either (R237). -/
def raise (f : Fault) : Result := .fault f

/-- The spec's numbers for the conditions (R230). -/
def Fault.code : Fault → Nat
  | .unknownOpcode _ => 1
  | .stackOverflow => 2
  | .stackUnderflow => 3
  | .addressOutOfRange _ => 4

/-- Go on with the value of a checked operation, or raise its condition. -/
def orRaise {α : Type} (e : Except Fault α) (k : α → Result) : Result :=
  match e with
  | .error f => raise f
  | .ok a => k a

/-! ### General registers (10_state.md R20) -/

/-- `V[r]`. -/
def State.reg (s : State) (r : Reg) : Byte := s.v[r.val]

/-- `V[r] <- b`. -/
def State.setReg (s : State) (r : Reg) (b : Byte) : State := { s with v := s.v.set r.val b }

/-- `V[k] <- bs[0]`, `V[k+1] <- bs[1]` and so on upward, in that order; numbers above F name no register. -/
def State.setRegs (s : State) (k : Nat) : List Byte → State
  | [] => s
  | b :: bs => State.setRegs (if h : k < 16 then s.setReg ⟨k, h⟩ b else s) (k + 1) bs

/-- V0 to VX inclusive, ascending. -/
def State.regsUpTo (s : State) (x : Reg) : List Byte := s.v.toList.take (x.val + 1)

/-! ### Memory (20_memory.md R57 to R59) -/

/-- `MemRead(addr, 1)` (R57): an address above 0xFFF raises AddressOutOfRange. -/
def State.memRead (s : State) (addr : Nat) : Except Fault Byte :=
  if addr > 0xFFF then .error (.addressOutOfRange addr) else .ok (s.mem.read addr)

/-- The check an instruction makes before its first access (R58): `n` bytes from `a`, the highest address within memory. -/
def rangeFault (a n : Nat) : Option Fault :=
  if 0 < n ∧ a + n - 1 > 0xFFF then some (.addressOutOfRange (a + n - 1)) else none

/-- `n` MemReads at ascending addresses, all checked first (R57, R58). -/
def State.readBlock (s : State) (a n : Nat) : Except Fault (List Byte) :=
  match rangeFault a n with
  | some f => .error f
  | none => .ok (s.mem.readList a n)

/-- MemWrites at ascending addresses, all checked before any write (R58). -/
def State.writeBlock (s : State) (a : Nat) (bs : List Byte) : Except Fault State :=
  match rangeFault a bs.length with
  | some f => .error f
  | none => .ok { s with mem := s.mem.writeList a bs }

/-- The fetch of a STEP (00_scope.md R8): `memory[pc]`, then `memory[pc+1]`. -/
def State.fetch (s : State) : Except Fault (Byte × Byte) :=
  match s.memRead s.pc.toNat with
  | .error f => .error f
  | .ok b1 =>
    match s.memRead (s.pc.toNat + 1) with
    | .error f => .error f
    | .ok b2 => .ok (b1, b2)

/-- Decode as part of a STEP: an unknown word raises UnknownOpcode (60_exceptions.md R231). -/
def decodeStep (b1 b2 : Byte) : Except Fault Instr :=
  match decode b1 b2 with
  | .error (.unknownOpcode w) => .error (.unknownOpcode w)
  | .ok i => .ok i

/-! ### The call stack (10_state.md R27) -/

/-- CALL's push: decrement `sp`, store `pc` in `stack[sp]`; StackOverflow when `sp = 0` (41_control_flow.md R143). -/
def State.pushPc (s : State) : Except Fault State :=
  if s.sp.val = 0 then .error .stackOverflow
  else .ok { s with sp := ⟨s.sp.val - 1, by omega⟩, stack := s.stack.set (s.sp.val - 1) s.pc (by omega) }

/-- RET's pop: read `stack[sp]`, increment `sp`; StackUnderflow when `sp = 16` (41_control_flow.md R141). -/
def State.popPc (s : State) : Except Fault (Word × State) :=
  if h : s.sp.val < 16 then .ok (s.stack[s.sp.val], { s with sp := ⟨s.sp.val + 1, by omega⟩ })
  else .error .stackUnderflow

/-! ### Committing `new_pc` (00_scope.md R8) -/

/-- The end of an instruction that sets `new_pc` itself: commit it; `redraw_needed` is false. -/
def State.finish (s : State) (newPc : Word) : Result := .next { s with pc := newPc, redraw := false }

/-- The default `new_pc = (pc + 2) mod 2^16` (10_state.md R25). -/
def State.advance (s : State) : Result := s.finish (s.pc + 2#16)

/-- A skip sets `new_pc <- (pc + 4) mod 2^16`, one not taken leaves the default (41_control_flow.md R150). -/
def State.skipIf (s : State) (c : Bool) : Result := s.finish (if c then s.pc + 4#16 else s.pc + 2#16)

/-- The end of 00E0 and DXYN: the default `new_pc`, and `redraw_needed` is true (00_scope.md R8, decision D13). -/
def State.advanceRedraw (s : State) : Result := .next { s with pc := s.pc + 2#16, redraw := true }

end Sys2Proof.Machine
end

