-- ==== Sys2Proof/Machine/Operands.lean ====
section
/-! DEFINITION. The operand forms: immediates widened to 16 bits, effective addresses through I, the key and the glyph a
register selects, decimal digits, draw coordinates. -/

namespace Sys2Proof.Machine

/-- A 12-bit NNN in a 16-bit register, zero-extended (30_encoding.md R82). -/
def zext12 (nnn : BitVec 12) : Word := nnn.setWidth 16

/-- A byte in a 16-bit sum, zero-extended (42_index_memory.md R161, 41_control_flow.md R148). -/
def zext8 (b : Byte) : Word := b.setWidth 16

/-- The effective address of byte `k` of a data access: the integer `I + k`, not reduced (42_index_memory.md R166). -/
def State.dataAddr (s : State) (k : Nat) : Nat := s.i.toNat + k

/-- The low nibble of a byte, as a number 0 to 15. -/
def lowNibble (b : Byte) : Fin 16 := ⟨b.toNat % 16, by omega⟩

/-- `is_pressed(k)`: bit k of the keypad (44_keypad_timers.md R211). -/
def State.isPressed (s : State) (k : Key) : Bool := s.keypad.getLsbD k.val

/-- The key a register selects: its low nibble (R211, KEY_INDEX = low_nibble, decision D8). -/
def keyOf (vx : Byte) : Key := lowNibble vx

/-- The address of the glyph a register selects: `5 * vx[3:0]` (42_index_memory.md R162, decision D9). -/
def glyphAddr (vx : Byte) : Word := BitVec.ofNat 16 (5 * (lowNibble vx).val)

/-- The three decimal digits of a byte, most significant first (42_index_memory.md R163). -/
def bcdDigits (vx : Byte) : List Byte :=
  [BitVec.ofNat 8 (vx.toNat / 100), BitVec.ofNat 8 (vx.toNat / 10 % 10), BitVec.ofNat 8 (vx.toNat % 10)]

/-- The start column `VX mod 64` (43_display.md R182). -/
def startColumn (vx : Byte) : Nat := vx.toNat % Config.dispW

/-- The start row `VY mod 32` (43_display.md R182). -/
def startRow (vy : Byte) : Nat := vy.toNat % Config.dispH

/-- How many rows a draw covers: `min(N, 32 - y0)`; rows below the bottom edge are clipped (43_display.md R182). -/
def drawnRows (n : BitVec 4) (y0 : Nat) : Nat := min n.toNat (Config.dispH - y0)

end Sys2Proof.Machine
end

