-- ==== Sys2Proof/Machine/Control.lean ====
section
/-! DEFINITION. Control transfer instructions (41_control_flow.md R140 to R150). -/

namespace Sys2Proof.Machine

/-- 0NNN `SYS NNN` (R140, SYS_POLICY = fault): raises UnknownOpcode with its word, always. -/
def execSys (nnn : BitVec 12) (_s : State) : Result := raise (.unknownOpcode (zext12 nnn))

/-- 00EE `RET` (R141): the stored address is the CALL's own, so 2 is added. -/
def execRet (s : State) : Result := orRaise s.popPc fun p => p.2.finish (p.1 + 2#16)

/-- 1NNN `JP NNN` (R142). -/
def execJp (nnn : BitVec 12) (s : State) : Result := s.finish (zext12 nnn)

/-- 2NNN `CALL NNN` (R143): pushes the address of this CALL. -/
def execCall (nnn : BitVec 12) (s : State) : Result := orRaise s.pushPc fun t => t.finish (zext12 nnn)

/-- 3XNN `SE VX, NN` (R144). -/
def execSeImm (x : Reg) (nn : Byte) (s : State) : Result := s.skipIf (s.reg x == nn)

/-- 4XNN `SNE VX, NN` (R145). -/
def execSneImm (x : Reg) (nn : Byte) (s : State) : Result := s.skipIf (s.reg x != nn)

/-- 5XY0 `SE VX, VY` (R146). -/
def execSeReg (x y : Reg) (s : State) : Result := s.skipIf (s.reg x == s.reg y)

/-- 9XY0 `SNE VX, VY` (R147). -/
def execSneReg (x y : Reg) (s : State) : Result := s.skipIf (s.reg x != s.reg y)

/-- BNNN `JP V0, NNN` (R148): the sum is not reduced to 12 bits (decision D10). -/
def execJpV0 (nnn : BitVec 12) (s : State) : Result := s.finish (zext12 nnn + zext8 (s.reg 0))

end Sys2Proof.Machine
end

