-- ==== Sys2Proof/Machine/IndexMemory.lean ====
section
/-! DEFINITION. Index register and memory instructions (42_index_memory.md R160 to R165). -/

namespace Sys2Proof.Machine

/-- `I <- a`. -/
def State.setI (s : State) (a : Word) : State := { s with i := a }

/-- The advance of I by FX55 and FX65: `I <- (I + X + 1) mod 2^16` (R164, R165). -/
def State.advanceI (s : State) (x : Reg) : State := s.setI (s.i + BitVec.ofNat 16 (x.val + 1))

/-- ANNN `LD I, NNN` (R160). -/
def execLdI (nnn : BitVec 12) (s : State) : Result := (s.setI (zext12 nnn)).advance

/-- FX1E `ADD I, VX` (R161): mod 2^16, no flag (decision D11). -/
def execAddI (x : Reg) (s : State) : Result := (s.setI (s.i + zext8 (s.reg x))).advance

/-- FX29 `LD F, VX` (R162). -/
def execLdF (x : Reg) (s : State) : Result := (s.setI (glyphAddr (s.reg x))).advance

/-- FX33 `LD B, VX` (R163): I is not changed. -/
def execLdB (x : Reg) (s : State) : Result :=
  orRaise (s.writeBlock (s.dataAddr 0) (bcdDigits (s.reg x))) fun t => t.advance

/-- FX55 `LD [I], VX` (R164). -/
def execLdMemVx (x : Reg) (s : State) : Result :=
  orRaise (s.writeBlock (s.dataAddr 0) (s.regsUpTo x)) fun t => (t.advanceI x).advance

/-- FX65 `LD VX, [I]` (R165). -/
def execLdVxMem (x : Reg) (s : State) : Result :=
  orRaise (s.readBlock (s.dataAddr 0) (x.val + 1)) fun bs => ((s.setRegs 0 bs).advanceI x).advance

end Sys2Proof.Machine
end

