-- ==== Sys2Proof/Machine/KeypadTimers.lean ====
section
/-! DEFINITION. Keypad and timer instructions (44_keypad_timers.md R200 to R204, R210). -/

namespace Sys2Proof.Machine

/-- EX9E `SKP VX` (R200). -/
def execSkp (x : Reg) (s : State) : Result := s.skipIf (s.isPressed (keyOf (s.reg x)))

/-- EXA1 `SKNP VX` (R201). -/
def execSknp (x : Reg) (s : State) : Result := s.skipIf (!s.isPressed (keyOf (s.reg x)))

/-- FX07 `LD VX, DT` (R202). -/
def execLdVxDt (x : Reg) (s : State) : Result := (s.setReg x s.dt).advance

/-- FX15 `LD DT, VX` (R203). -/
def execLdDtVx (x : Reg) (s : State) : Result := { s with dt := s.reg x }.advance

/-- FX18 `LD ST, VX` (R210). -/
def execLdStVx (x : Reg) (s : State) : Result := { s with st := s.reg x }.advance

/-- A key code as a register holds it: `zext_8(latch)` (R204). -/
def keyByte (k : Key) : Byte := BitVec.ofNat 8 k.val

/-- FX0A `LD VX, K` (R204): deliver the released key, or arm the latch and stay at this instruction. -/
def execLdVxK (x : Reg) (s : State) : Result :=
  match s.latch with
  | .key k => ({ s with latch := .none }.setReg x (keyByte k)).advance
  | .none => { s with latch := .wantEvent }.finish s.pc
  | .wantEvent => { s with latch := .wantEvent }.finish s.pc

end Sys2Proof.Machine
end

