-- ==== Sys2Proof/Machine/Flags.lean ====
section
/-! DEFINITION. The 8-bit ALU (40_load_alu.md R122): each operation gives a result and the value VF receives. Operands are
taken as numbers, the exact result is computed, and it is narrowed to 8 bits at the end. -/

namespace Sys2Proof.Machine

/-- A flag as VF holds it: 1 or 0. -/
def flagByte (b : Bool) : Byte := if b then 1#8 else 0#8

/-- 8XY4: the sum mod 256 and the carry, 1 iff the sum exceeds 255 (R116). -/
def aluAdd (a b : Byte) : Byte × Byte :=
  (BitVec.ofNat 8 (a.toNat + b.toNat), flagByte (decide (a.toNat + b.toNat > 255)))

/-- 8XY5 and 8XY7: minuend less subtrahend mod 256 and "no borrow", 0 iff minuend < subtrahend (R117, R119). -/
def aluSub (m sub : Byte) : Byte × Byte :=
  (BitVec.ofNat 8 (m.toNat + 256 - sub.toNat), flagByte (!decide (m.toNat < sub.toNat)))

/-- 8XY6: one bit right, zero fill, and the bit shifted out (R118). -/
def aluShr (a : Byte) : Byte × Byte := (BitVec.ofNat 8 (a.toNat / 2), flagByte (a.getLsbD 0))

/-- 8XYE: one bit left, zero fill, and the bit shifted out (R120). -/
def aluShl (a : Byte) : Byte × Byte := (BitVec.ofNat 8 (a.toNat * 2), flagByte (a.getLsbD 7))

/-- 8XY1 to 8XY3: the result, and VF reset to 0 (R113 to R115). -/
def aluLogic (r : Byte) : Byte × Byte := (r, 0#8)

/-- 7XNN: the sum mod 256, no flag (R111). -/
def aluAddImm (a b : Byte) : Byte := BitVec.ofNat 8 (a.toNat + b.toNat)

/-- Result to VX first, flag to VF last, so with X = F the flag wins (10_state.md R22, decision D12). -/
def State.writeAlu (s : State) (x : Reg) (r : Byte × Byte) : State := (s.setReg x r.1).setReg VF r.2

end Sys2Proof.Machine
end

