-- ==== Sys2Proof/Machine/LoadAlu.lean ====
section
/-! DEFINITION. Register load, 8-bit ALU and random instructions (40_load_alu.md R110 to R121). -/

namespace Sys2Proof.Machine

/-- 6XNN `LD VX, NN` (R110). -/
def execLdImm (x : Reg) (nn : Byte) (s : State) : Result := (s.setReg x nn).advance

/-- 7XNN `ADD VX, NN` (R111): no flag. -/
def execAddImm (x : Reg) (nn : Byte) (s : State) : Result := (s.setReg x (aluAddImm (s.reg x) nn)).advance

/-- 8XY0 `LD VX, VY` (R112). -/
def execLdReg (x y : Reg) (s : State) : Result := (s.setReg x (s.reg y)).advance

/-- 8XY1 `OR VX, VY` (R113). -/
def execOrReg (x y : Reg) (s : State) : Result := (s.writeAlu x (aluLogic (s.reg x ||| s.reg y))).advance

/-- 8XY2 `AND VX, VY` (R114). -/
def execAndReg (x y : Reg) (s : State) : Result := (s.writeAlu x (aluLogic (s.reg x &&& s.reg y))).advance

/-- 8XY3 `XOR VX, VY` (R115). -/
def execXorReg (x y : Reg) (s : State) : Result := (s.writeAlu x (aluLogic (s.reg x ^^^ s.reg y))).advance

/-- 8XY4 `ADD VX, VY` (R116). -/
def execAddReg (x y : Reg) (s : State) : Result := (s.writeAlu x (aluAdd (s.reg x) (s.reg y))).advance

/-- 8XY5 `SUB VX, VY` (R117): VX is the minuend. -/
def execSubReg (x y : Reg) (s : State) : Result := (s.writeAlu x (aluSub (s.reg x) (s.reg y))).advance

/-- 8XY6 `SHR VX, VY` (R118): VY is the source. -/
def execShr (x y : Reg) (s : State) : Result := (s.writeAlu x (aluShr (s.reg y))).advance

/-- 8XY7 `SUBN VX, VY` (R119): VY is the minuend. -/
def execSubn (x y : Reg) (s : State) : Result := (s.writeAlu x (aluSub (s.reg y) (s.reg x))).advance

/-- 8XYE `SHL VX, VY` (R120): VY is the source. -/
def execShl (x y : Reg) (s : State) : Result := (s.writeAlu x (aluShl (s.reg y))).advance

/-- CXNN `RND VX, NN` (R121): the random input of this STEP, masked. -/
def execRnd (x : Reg) (nn : Byte) (s : State) : Result := (s.setReg x (s.rnd &&& nn)).advance

end Sys2Proof.Machine
end

