-- ==== Sys2Proof/Machine/Compositor.lean ====
section
/-! DEFINITION. The sprite compositor (43_display.md R180, R182): a pure function of the display, the sprite bytes and the
start position, giving the new display and whether a lit pixel went unlit. -/

namespace Sys2Proof.Machine

/-- Where pixel (x, y) stands: byte `y * 8 + x div 8` (10_state.md R30). -/
def pxByte (x y : Nat) : Nat := y * 8 + x / 8

/-- And bit `7 - (x mod 8)` of it: the most significant bit is leftmost (10_state.md R30). -/
def pxBit (x : Nat) : Nat := 7 - x % 8

/-- `px(x, y)`, for columns 0 to 63 and rows 0 to 31 (10_state.md R30). -/
def px (d : Display) (x y : Nat) : Bool := (d[pxByte x y]?.getD 0#8).getLsbD (pxBit x)

/-- A byte with its bit `k` set to `b`. -/
def setBit (u : Byte) (k : Nat) (b : Bool) : Byte := if b then u ||| (1#8 <<< k) else u &&& ~~~(1#8 <<< k)

/-- `px(x, y) <- b`. -/
def setPx (d : Display) (x y : Nat) (b : Bool) : Display :=
  d.setIfInBounds (pxByte x y) (setBit (d[pxByte x y]?.getD 0#8) (pxBit x) b)

/-- One sprite bit on one pixel: XOR, and a collision when a lit pixel is turned off. A column beyond the right edge is
clipped, and with it the rest of the row (43_display.md R182). -/
def drawPixel (x y : Nat) (bit : Bool) (a : Display × Bool) : Display × Bool :=
  if x < Config.dispW then (setPx a.1 x y (px a.1 x y ^^ bit), a.2 || (bit && px a.1 x y)) else a

/-- One sprite row: bit 7 of the byte is the leftmost pixel (43_display.md R180). -/
def drawRow (b : Byte) (x0 y : Nat) (a : Display × Bool) : Display × Bool :=
  (List.range 8).foldl (fun a c => drawPixel (x0 + c) y (b.getLsbD (7 - c)) a) a

/-- Sprite rows downward from row `y`. -/
def drawRows (x0 : Nat) : List Byte → Nat → Display × Bool → Display × Bool
  | [], _, a => a
  | b :: bs, y, a => drawRows x0 bs (y + 1) (drawRow b x0 y a)

/-- The compositor: the display after the draw, and the collision flag (43_display.md R180, R182). -/
def blit (d : Display) (bs : List Byte) (x0 y0 : Nat) : Display × Bool := drawRows x0 bs y0 (d, false)

/-- The clear display (43_display.md R181). -/
def clearDisplay : Display := Vector.replicate 256 0#8

end Sys2Proof.Machine
end

