-- ==== Sys2Proof/Machine/Screen.lean ====
section
/-! DEFINITION. Display instructions (43_display.md R181, R182). -/

namespace Sys2Proof.Machine

/-- 00E0 `CLS` (R181): VF is not written. -/
def execCls (s : State) : Result := { s with display := clearDisplay }.advanceRedraw

/-- The sprite bytes DXYN reads: the rows not clipped at the bottom, from I upward, checked before anything is written
(R182, decision D16). -/
def State.spriteBytes (s : State) (y : Reg) (n : BitVec 4) : Except Fault (List Byte) :=
  s.readBlock (s.dataAddr 0) (drawnRows n (startRow (s.reg y)))

/-- DXYN `DRW VX, VY, N` (R182): the coordinates are read before VF is written. -/
def execDrw (x y : Reg) (n : BitVec 4) (s : State) : Result :=
  orRaise (s.spriteBytes y n) fun bs =>
    let drawn := blit s.display bs (startColumn (s.reg x)) (startRow (s.reg y))
    ({ s with display := drawn.1 }.setReg VF (flagByte drawn.2)).advanceRedraw

end Sys2Proof.Machine
end

