-- ==== Sys2Proof/Machine/Transactions.lean ====
section
/-! DEFINITION. The host's transactions other than STEP (00_scope.md R7), and what STEP does around an instruction: the
random input it presents and the outputs it records. -/

namespace Sys2Proof.Machine

/-! ### Timers and keypad (44_keypad_timers.md R207 to R209) -/

/-- A timer counts down to 0 and stays there (R209). -/
def countDown (t : Byte) : Byte := if t.toNat > 0 then BitVec.ofNat 8 (t.toNat - 1) else t

/-- TICK (R209). -/
def tick (s : State) : State := { s with dt := countDown s.dt, st := countDown s.st }

/-- The mask of key k's bit. -/
def keyMask (k : Key) : BitVec 16 := 1#16 <<< k.val

/-- KEY_DOWN(k) (R207): the latch is never touched. -/
def keyDown (k : Key) (s : State) : State := { s with keypad := s.keypad ||| keyMask k }

/-- What a release does to the latch: captured only while waiting, and only if the key was held (R208, decision D14). -/
def latchOnRelease (k : Key) (wasDown : Bool) : Latch → Latch
  | .wantEvent => if wasDown then .key k else .wantEvent
  | .none => .none
  | .key j => .key j

/-- KEY_UP(k) (R208). -/
def keyUp (k : Key) (s : State) : State :=
  { s with keypad := s.keypad &&& ~~~(keyMask k), latch := latchOnRelease k (s.isPressed k) s.latch }

/-! ### DISPLAY_READ, LOAD, RESET -/

/-- DISPLAY_READ (10_state.md R31): returns the 256 bytes; nothing of the machine changes. -/
def displayRead (s : State) : State := { s with shown := some s.display }

/-- LOAD(rom) (70_reset_and_hazards.md R263, R264): copied from 0x200 upward, once, before the first STEP. DESIGN CHOICE
(notes/assumptions/4.md): TICK, KEY_DOWN, KEY_UP and DISPLAY_READ between RESET and LOAD are carried out and leave `phase`
alone, so the LOAD after them is still accepted; the spec does not say what a model does then. -/
def load (rom : List Byte) (s : State) : Result :=
  if rom.length > Config.romMax then .refused .romTooLong
  else match s.phase with
    | .reset => .next { s with mem := s.mem.writeList Config.progBase rom, phase := .loaded }
    | .loaded => .refused .loadOutOfOrder
    | .running => .refused .loadOutOfOrder

/-- RESET (70_reset_and_hazards.md R260, R262): every element of the machine at its reset value; the host's own list of
transactions and its random source are not the machine's. -/
def resetMachine (s : State) : State := { State.reset with inbox := s.inbox, draws := s.draws }

/-! ### Around an instruction (00_scope.md R7, R8) -/

/-- Present the random input of this STEP. -/
def withRnd (r : Byte) (s : State) : State := { s with rnd := r }

/-- STEP's outputs once the instruction has completed: `instr` is recorded and the run has begun. -/
def recordStep (b1 b2 : Byte) (op : Instr) (s : State) : State :=
  { s with instr := some ⟨b1, b2, op⟩, phase := .running }

/-- Apply a function to a next state; a fault or a refusal passes through. -/
def mapNext (f : State → State) : Result → Result
  | .next s => .next (f s)
  | .fault e => .fault e
  | .refused r => .refused r

/-- The host's list without the transaction being carried out. -/
def withInbox (rest : List Transaction) (s : State) : State := { s with inbox := rest }

/-- One more free random input has been drawn. -/
def countDraw (s : State) : State := { s with draws := s.draws + 1 }

end Sys2Proof.Machine
end

