-- ==== Sys2Proof/Machine/Step.lean ====
section
/-! DEFINITION. One step of the machine: the host's next transaction, carried out whole (00_scope.md R6 to R9). When the
host's list is empty the transaction is a STEP whose random input is a free value. -/

namespace Sys2Proof.Machine

/-- STEP(rnd) (00_scope.md R8): fetch, decode, execute, commit; a fatal condition changes nothing (60_exceptions.md R236). -/
def stepCore (r : Byte) (s : State) : Result :=
  orRaise s.fetch fun b =>
    orRaise (decodeStep b.1 b.2) fun op =>
      mapNext (recordStep b.1 b.2 op) (exec op (withRnd r s))

/-- The host's next transaction (00_scope.md R7), whatever the boot order has come to: TICK, KEY_DOWN, KEY_UP, DISPLAY_READ
before the LOAD (DESIGN CHOICE, the spec is silent) and a STEP without a LOAD (DEDUCED) are carried out
(notes/assumptions/4.md). -/
def step (s : State) : Host.Outcome State Fault Refusal :=
  match s.inbox with
  | [] => stepCore (Config.hostRandom s.draws) (countDraw s)
  | .reset :: rest => .next (resetMachine (withInbox rest s))
  | .load rom :: rest => load rom (withInbox rest s)
  | .step r :: rest => stepCore r (withInbox rest s)
  | .tick :: rest => .next (tick (withInbox rest s))
  | .keyDown k :: rest => .next (keyDown k (withInbox rest s))
  | .keyUp k :: rest => .next (keyUp k (withInbox rest s))
  | .displayRead :: rest => .next (displayRead (withInbox rest s))

/-- Whether a transaction is a STEP. -/
def isStep : Transaction → Bool
  | .step _ => true
  | .reset => false
  | .load _ => false
  | .tick => false
  | .keyDown _ => false
  | .keyUp _ => false
  | .displayRead => false

/-- The address of the next fetch that can succeed: `pc`, or the program base where `pc` has no two bytes left. -/
def fetchAt (s : State) : Word := if s.pc.toNat + 1 > 0xFFF then 0x200#16 else s.pc

/-- The state with the instruction whose bits are `w` stored where `step` fetches its next instruction: both bytes at `pc`
(big-endian), and the host's next transaction a STEP. -/
def State.withFetchWord (s : State) (nbits w : Nat) : State :=
  { s with
    pc := fetchAt s
    mem := s.mem.writeList (fetchAt s).toNat [(tableBytes nbits w).1, (tableBytes nbits w).2]
    inbox := s.inbox.dropWhile (fun t => !isStep t) }

end Sys2Proof.Machine
end

