-- ==== Sys2Proof/Safety.lean ====
section
/-! DEFINITION. The terms the statements use: what a transaction leaves unchanged, the shapes of an instruction's result,
the invariants of the machine, and what counts as a safe run (60_exceptions.md R237). -/

namespace Sys2Proof.Machine

/-! ### What is left unchanged -/

/-- Every general register but those listed. -/
def KeepsRegs (rs : List Reg) (s t : State) : Prop := ∀ q : Reg, q ∉ rs → t.reg q = s.reg q

/-- Every byte of memory, read one by one. -/
def KeepsMem (s t : State) : Prop := ∀ a : Nat, t.mem.read a = s.mem.read a

/-- Every byte of memory outside the `n` bytes from `a`. -/
def KeepsMemOutside (a n : Nat) (s t : State) : Prop :=
  ∀ c : Nat, ¬(a ≤ c ∧ c < a + n) → t.mem.read c = s.mem.read c

/-- The stack pointer and every slot. -/
def KeepsStack (s t : State) : Prop := t.sp = s.sp ∧ t.stack = s.stack

/-- DT and ST. -/
def KeepsTimers (s t : State) : Prop := t.dt = s.dt ∧ t.st = s.st

/-- Every pixel. -/
def KeepsScreen (s t : State) : Prop := ∀ x < 64, ∀ y < 32, px t.display x y = px s.display x y

/-- The keypad and the latch. -/
def KeepsKeys (s t : State) : Prop := t.keypad = s.keypad ∧ t.latch = s.latch

/-- The host's side: its pending transactions, the random input and its count, the boot order, and the outputs that STEP
and DISPLAY_READ record. -/
def KeepsHost (s t : State) : Prop :=
  t.inbox = s.inbox ∧ t.rnd = s.rnd ∧ t.draws = s.draws ∧ t.phase = s.phase ∧ t.instr = s.instr ∧ t.shown = s.shown

/-- Everything but the general registers, `pc` and `redraw_needed`. -/
def KeepsAllButRegs (s t : State) : Prop :=
  KeepsMem s t ∧ t.i = s.i ∧ KeepsStack s t ∧ KeepsTimers s t ∧ KeepsScreen s t ∧ KeepsKeys s t ∧ KeepsHost s t

/-- Every element of the machine the spec names (10_state.md R35). -/
def SameMachine (s t : State) : Prop :=
  KeepsRegs [] s t ∧ KeepsMem s t ∧ t.i = s.i ∧ t.pc = s.pc ∧ KeepsStack s t ∧ KeepsTimers s t ∧ KeepsScreen s t ∧
    KeepsKeys s t

/-! ### Shapes of an instruction's result -/

/-- The instruction's word has the fixed bits of its pattern (30_encoding.md R90). -/
def HasPattern (i : Instr) (mask fixed : Word) : Prop := encode i &&& mask = fixed

/-- The instruction goes on to the next one (`pc + 2`), flags no redraw, and changes nothing but registers. -/
def PlainFrame (s t : State) : Prop := t.pc = s.pc + 2#16 ∧ t.redraw = false ∧ KeepsAllButRegs s t

/-- The instruction completes, writes `b` to V[x] and changes no other register and nothing else. -/
def WritesRegister (i : Instr) (x : Reg) (b : Byte) (s : State) : Prop :=
  ∃ t, exec i s = .next t ∧ t.reg x = b ∧ KeepsRegs [x] s t ∧ PlainFrame s t

/-- The instruction completes, leaves the number `result` in V[x] and then `flag` in VF (which wins when X is F), and
changes no other register and nothing else (10_state.md R22). -/
def WritesResultAndFlag (i : Instr) (x : Reg) (result : Nat) (flag : Byte) (s : State) : Prop :=
  ∃ t, exec i s = .next t ∧ t.reg VF = flag ∧ (x ≠ VF → (t.reg x).toNat = result) ∧ KeepsRegs [x, VF] s t ∧ PlainFrame s t

/-- The instruction completes with `pc = target` and changes nothing else. -/
def OnlySetsPc (i : Instr) (target : Word) (s : State) : Prop :=
  ∃ t, exec i s = .next t ∧ t.pc = target ∧ t.redraw = false ∧ KeepsRegs [] s t ∧ KeepsAllButRegs s t

/-- The instruction completes with `pc + 4` if `c` holds and `pc + 2` otherwise, and changes nothing else
(41_control_flow.md R150). -/
def SkipsIf (i : Instr) (c : Prop) (s : State) : Prop :=
  (c → OnlySetsPc i (s.pc + 4#16) s) ∧ (¬c → OnlySetsPc i (s.pc + 2#16) s)

/-- The instruction completes, leaves `a` in I, and changes nothing else. -/
def WritesIndex (i : Instr) (a : Nat) (s : State) : Prop :=
  ∃ t, exec i s = .next t ∧ t.i.toNat = a ∧ t.pc = s.pc + 2#16 ∧ t.redraw = false ∧ KeepsRegs [] s t ∧ KeepsMem s t ∧
    KeepsStack s t ∧ KeepsTimers s t ∧ KeepsScreen s t ∧ KeepsKeys s t ∧ KeepsHost s t

/-- What FX33, FX55 and FX65 leave unchanged beside memory, registers and I. -/
def TransferFrame (s t : State) : Prop :=
  t.pc = s.pc + 2#16 ∧ t.redraw = false ∧ KeepsStack s t ∧ KeepsTimers s t ∧ KeepsScreen s t ∧ KeepsKeys s t ∧
    KeepsHost s t

/-- What 00E0 and DXYN leave unchanged beside the display and VF. -/
def ScreenFrame (s t : State) : Prop :=
  t.pc = s.pc + 2#16 ∧ t.redraw = true ∧ KeepsMem s t ∧ t.i = s.i ∧ KeepsStack s t ∧ KeepsTimers s t ∧ KeepsKeys s t ∧
    KeepsHost s t

/-- The sprite bit DXYN puts on pixel (cx, cy): the sprite's row `cy - y0` is the byte at `I + (cy - y0)`, its leftmost
pixel is bit 7, and the sprite covers columns x0 to x0 + 7 and rows y0 to y0 + N - 1 (43_display.md R180, R182). -/
def spriteAt (s : State) (x y : Reg) (n : BitVec 4) (cx cy : Nat) : Prop :=
  let x0 := (s.reg x).toNat % 64
  let y0 := (s.reg y).toNat % 32
  x0 ≤ cx ∧ cx < x0 + 8 ∧ y0 ≤ cy ∧ cy < y0 + n.toNat ∧
    (s.mem.read (s.i.toNat + (cy - y0))).getLsbD (7 - (cx - x0)) = true

/-- The rows a DXYN draws all lie in memory: `min(N, 32 - y0)` rows from I (43_display.md R182). -/
def SpriteInMemory (s : State) (y : Reg) (n : BitVec 4) : Prop :=
  s.i.toNat + min n.toNat (32 - (s.reg y).toNat % 32) ≤ 4096 ∨ n.toNat = 0

/-- STEP's next transaction: the host's list is empty or begins with a STEP; `r` is its random input and `u` the state in
which the instruction is fetched. -/
def StepsWith (s : State) (r : Byte) (u : State) : Prop :=
  (s.inbox = [] ∧ r = Config.hostRandom s.draws ∧ u = countDraw s) ∨
    ∃ rest, s.inbox = .step r :: rest ∧ u = withInbox rest s

/-- The instruction at `pc`, if both its bytes are in memory and they decode. -/
def InstructionAtPc (s : State) (i : Instr) : Prop :=
  s.pc.toNat ≤ 0xFFE ∧ decode (s.mem.read s.pc.toNat) (s.mem.read (s.pc.toNat + 1)) = .ok i

/-! ### Invariants -/

/-- Memory is in its canonical form. -/
def MemCanonical (s : State) : Prop := s.mem.wf = true

/-- `pc` is at most 0x10FE, and every live return record is the address of an instruction in memory (10_state.md R26). -/
def PcBounded (s : State) : Prop :=
  s.pc.toNat ≤ 0x10FE ∧ ∀ k, (h : k < 16) → s.sp.val ≤ k → s.stack[k].toNat ≤ 0xFFE

/-- While the latch is not NONE the instruction at `pc` is an FX0A (44_keypad_timers.md R206), and before the first STEP
it is NONE. -/
def LatchWaits (s : State) : Prop :=
  (s.latch ≠ .none → ∃ x, InstructionAtPc s (.ldVxK x)) ∧ (s.phase ≠ .running → s.latch = .none)

/-! ### Safe runs -/

/-- A run of `k` transactions that none of the fatal conditions has ended: a run that contains a Fault has gone wrong
(60_exceptions.md R237). -/
def SafeRun (k : Nat) (s : State) : Prop := ∃ t, Sys2Proof.core.run k s = .next t

end Sys2Proof.Machine
end

