-- ==== Sys2Proof/Certificates/Slice0/Obligations.lean ====
section
/-! DEFINITION. The statements for the provers, file by file of spec/. Where a clause rests on one of the spec's own
decisions (92_eei_decisions.md) or on a choice of the model, the docstring names it. -/

open Sys2Proof Sys2Proof.Machine

/-! ### Load, ALU, random (40_load_alu.md) -/

/-- R110, 6XNN: VX holds NN; nothing else changes. -/
def Obligations.LoadImmediateSetsVX : Prop := ∀ (x : Reg) (nn : Byte) (s : State),
  HasPattern (.ldImm x nn) 0xF000#16 0x6000#16 ∧ WritesRegister (.ldImm x nn) x nn s

/-- R111, 7XNN: the sum mod 256, and no flag: VF changes only when X is F. -/
def Obligations.AddImmediateWrapsWithoutFlag : Prop := ∀ (x : Reg) (nn : Byte) (s : State),
  HasPattern (.addImm x nn) 0xF000#16 0x7000#16 ∧
    WritesRegister (.addImm x nn) x (BitVec.ofNat 8 (((s.reg x).toNat + nn.toNat) % 256)) s

/-- R112, 8XY0: VX receives VY; VF is not reset. -/
def Obligations.CopyRegisterKeepsVF : Prop := ∀ (x y : Reg) (s : State),
  HasPattern (.ldReg x y) 0xF00F#16 0x8000#16 ∧ WritesRegister (.ldReg x y) x (s.reg y) s

/-- R113 to R115, 8XY1 to 8XY3: the bitwise result of the old values, then VF is 0. -/
def Obligations.LogicOperationsResetVF : Prop := ∀ (x y : Reg) (s : State),
  (HasPattern (.orReg x y) 0xF00F#16 0x8001#16 ∧
    WritesResultAndFlag (.orReg x y) x (s.reg x ||| s.reg y).toNat 0#8 s) ∧
  (HasPattern (.andReg x y) 0xF00F#16 0x8002#16 ∧
    WritesResultAndFlag (.andReg x y) x (s.reg x &&& s.reg y).toNat 0#8 s) ∧
  (HasPattern (.xorReg x y) 0xF00F#16 0x8003#16 ∧
    WritesResultAndFlag (.xorReg x y) x (s.reg x ^^^ s.reg y).toNat 0#8 s)

/-- R116, 8XY4: the sum mod 256, VF 1 iff the sum exceeds 255, which is iff the wrapped sum is below the old VX. Where
X is F the flag is written last (10_state.md R22, the spec's decision D12), here and in the statements beside this one. -/
def Obligations.AddReportsCarryInVF : Prop := ∀ (x y : Reg) (s : State),
  HasPattern (.addReg x y) 0xF00F#16 0x8004#16 ∧
  WritesResultAndFlag (.addReg x y) x (((s.reg x).toNat + (s.reg y).toNat) % 256)
    (if (s.reg x).toNat + (s.reg y).toNat > 255 then 1#8 else 0#8) s ∧
  (∀ t, exec (.addReg x y) s = .next t →
    (t.reg VF = 1#8 ↔ ((s.reg x).toNat + (s.reg y).toNat) % 256 < (s.reg x).toNat))

/-- R117 and R119, 8XY5 and 8XY7: the difference mod 256, VF 0 iff the minuend is below the subtrahend. -/
def Obligations.SubtractReportsNoBorrowInVF : Prop := ∀ (x y : Reg) (s : State),
  let vx := (s.reg x).toNat
  let vy := (s.reg y).toNat
  (HasPattern (.subReg x y) 0xF00F#16 0x8005#16 ∧
    WritesResultAndFlag (.subReg x y) x (if vx < vy then vx + 256 - vy else vx - vy) (if vx < vy then 0#8 else 1#8) s) ∧
  (HasPattern (.subn x y) 0xF00F#16 0x8007#16 ∧
    WritesResultAndFlag (.subn x y) x (if vy < vx then vy + 256 - vx else vy - vx) (if vy < vx then 0#8 else 1#8) s)

/-- R118 and R120, 8XY6 and 8XYE: VY shifted one bit into VX, VF the bit shifted out (the LSB, the MSB). -/
def Obligations.ShiftsTakeVYAsSource : Prop := ∀ (x y : Reg) (s : State),
  let vy := (s.reg y).toNat
  (HasPattern (.shr x y) 0xF00F#16 0x8006#16 ∧
    WritesResultAndFlag (.shr x y) x (vy / 2) (BitVec.ofNat 8 (vy % 2)) s) ∧
  (HasPattern (.shl x y) 0xF00F#16 0x800E#16 ∧
    WritesResultAndFlag (.shl x y) x (vy * 2 % 256) (BitVec.ofNat 8 (vy / 128)) s)

/-- R121, CXNN: VX receives the random input of this STEP, whatever it is, masked by NN. -/
def Obligations.RandomIsMaskedInput : Prop := ∀ (x : Reg) (nn : Byte) (s : State) (r : Byte),
  HasPattern (.rnd x nn) 0xF000#16 0xC000#16 ∧ WritesRegister (.rnd x nn) x (r &&& nn) (withRnd r s)

/-- 00_scope.md R7, decision D17: an executed CXNN takes the byte the host presents to its STEP. Where the host's list is
empty, a STEP by the model's choice (notes/assumptions/2.md), that byte is the free value Config.hostRandom
(notes/assumptions/1.md); nothing is said of its value. -/
def Obligations.StepPassesHostByteToRandom : Prop := ∀ (s u : State) (r : Byte) (x : Reg) (nn : Byte),
  StepsWith s r u → InstructionAtPc s (.rnd x nn) →
    ∃ t, step s = .next t ∧ t.reg x = r &&& nn ∧ KeepsRegs [x] s t ∧ t.pc = s.pc + 2#16 ∧ t.inbox = u.inbox

/-- 00_scope.md R7, decision D17: no instruction but CXNN reads the random input. -/
def Obligations.OnlyRandomReadsTheRandomInput : Prop := ∀ (i : Instr) (s : State) (r : Byte),
  (∀ x nn, i ≠ .rnd x nn) → exec i (withRnd r s) = mapNext (withRnd r) (exec i s)

/-! ### Control transfer (41_control_flow.md) -/

/-- R140 under decision D2 (SYS_POLICY = fault): SYS raises UnknownOpcode with its word, always. -/
def Obligations.SysRaisesUnknownOpcode : Prop := ∀ (nnn : BitVec 12) (s : State),
  exec (.sys nnn) s = .fault (.unknownOpcode (encode (.sys nnn)))

/-- R141 and R233, 00EE: with `sp < 16` the return record is read, `sp` incremented, `pc` two past the record, the slots
keep their values; with `sp = 16` StackUnderflow. -/
def Obligations.ReturnResumesAfterTheCall : Prop := ∀ s : State,
  HasPattern .ret 0xFFFF#16 0x00EE#16 ∧
  (∀ h : s.sp.val < 16, ∃ t, exec .ret s = .next t ∧ t.pc = s.stack[s.sp.val] + 2#16 ∧ t.sp.val = s.sp.val + 1 ∧
    t.stack = s.stack ∧ t.redraw = false ∧ KeepsRegs [] s t ∧ KeepsMem s t ∧ t.i = s.i ∧ KeepsTimers s t ∧
    KeepsScreen s t ∧ KeepsKeys s t ∧ KeepsHost s t) ∧
  (s.sp.val = 16 → exec .ret s = .fault .stackUnderflow)

/-- R143 and R232, 2NNN: with `sp > 0` it is decremented and the new top slot holds the address of this CALL; the other
slots keep their values; with `sp = 0` StackOverflow. -/
def Obligations.CallPushesItsOwnAddress : Prop := ∀ (nnn : BitVec 12) (s : State),
  HasPattern (.call nnn) 0xF000#16 0x2000#16 ∧
  (0 < s.sp.val → ∃ t, exec (.call nnn) s = .next t ∧ t.pc.toNat = nnn.toNat ∧ t.sp.val + 1 = s.sp.val ∧
    (∀ k, (h : k < 16) → t.stack[k] = if k = t.sp.val then s.pc else s.stack[k]) ∧ t.redraw = false ∧
    KeepsRegs [] s t ∧ KeepsMem s t ∧ t.i = s.i ∧ KeepsTimers s t ∧ KeepsScreen s t ∧ KeepsKeys s t ∧ KeepsHost s t) ∧
  (s.sp.val = 0 → exec (.call nnn) s = .fault .stackOverflow)

/-- 41_control_flow.md R141 (95_test_vectors.md S6): after a CALL, a RET in any state that holds the stack as the CALL left
it resumes at the instruction after the CALL with `sp` as before it. -/
def Obligations.CallThenReturnRestoresPcAndSp : Prop := ∀ (nnn : BitVec 12) (s t u : State),
  exec (.call nnn) s = .next t → KeepsStack t u →
    ∃ w, exec .ret u = .next w ∧ w.pc = s.pc + 2#16 ∧ w.sp = s.sp ∧
      ∀ k, (h : k < 16) → k + 1 ≠ s.sp.val → w.stack[k] = s.stack[k]

/-- R142, 1NNN: `pc` is NNN; nothing else changes. -/
def Obligations.JumpSetsPc : Prop := ∀ (nnn : BitVec 12) (s : State),
  HasPattern (.jp nnn) 0xF000#16 0x1000#16 ∧ OnlySetsPc (.jp nnn) (BitVec.ofNat 16 nnn.toNat) s

/-- R148 under decision D10, BNNN: `pc` is NNN + V0, at most 0x10FE, not reduced to 12 bits. -/
def Obligations.JumpWithOffsetAddsV0 : Prop := ∀ (nnn : BitVec 12) (s : State),
  HasPattern (.jpV0 nnn) 0xF000#16 0xB000#16 ∧
  ∃ t, exec (.jpV0 nnn) s = .next t ∧ t.pc.toNat = nnn.toNat + (s.reg 0).toNat ∧ t.pc.toNat ≤ 0x10FE ∧
    t.redraw = false ∧ KeepsRegs [] s t ∧ KeepsAllButRegs s t

/-- R144 to R147, 3XNN, 4XNN, 5XY0, 9XY0: `pc + 4` iff the comparison holds, else `pc + 2`; nothing else changes. -/
def Obligations.ComparisonsSkipOneInstruction : Prop := ∀ (x y : Reg) (nn : Byte) (s : State),
  (HasPattern (.seImm x nn) 0xF000#16 0x3000#16 ∧ SkipsIf (.seImm x nn) (s.reg x = nn) s) ∧
  (HasPattern (.sneImm x nn) 0xF000#16 0x4000#16 ∧ SkipsIf (.sneImm x nn) (s.reg x ≠ nn) s) ∧
  (HasPattern (.seReg x y) 0xF00F#16 0x5000#16 ∧ SkipsIf (.seReg x y) (s.reg x = s.reg y) s) ∧
  (HasPattern (.sneReg x y) 0xF00F#16 0x9000#16 ∧ SkipsIf (.sneReg x y) (s.reg x ≠ s.reg y) s)

/-! ### Index register and memory (42_index_memory.md) -/

/-- R160, ANNN: I holds NNN, zero-extended; nothing else changes. -/
def Obligations.LoadIndexSetsI : Prop := ∀ (nnn : BitVec 12) (s : State),
  HasPattern (.ldI nnn) 0xF000#16 0xA000#16 ∧ WritesIndex (.ldI nnn) nnn.toNat s

/-- R161 under decision D11, FX1E: I is I + VX mod 2^16; VF is not written. -/
def Obligations.AddToIndexWrapsWithoutFlag : Prop := ∀ (x : Reg) (s : State),
  HasPattern (.addI x) 0xF0FF#16 0xF01E#16 ∧ WritesIndex (.addI x) ((s.i.toNat + (s.reg x).toNat) % 65536) s

/-- R162 under decision D9 (FONT_INDEX = low_nibble), FX29: I is five times the low nibble of VX. -/
def Obligations.FontInstructionPointsAtGlyph : Prop := ∀ (x : Reg) (s : State),
  HasPattern (.ldF x) 0xF0FF#16 0xF029#16 ∧ WritesIndex (.ldF x) (5 * ((s.reg x).toNat % 16)) s

/-- R163, FX33: the three decimal digits of VX at I, I + 1, I + 2, most significant first; I and every other byte unchanged.
Completes when the last address is in memory (decision D4). -/
def Obligations.DecimalDigitsAreStored : Prop := ∀ (x : Reg) (s : State),
  HasPattern (.ldB x) 0xF0FF#16 0xF033#16 ∧
  (MemCanonical s → s.dataAddr 2 ≤ 0xFFF → ∃ t, exec (.ldB x) s = .next t ∧
    (t.mem.read (s.dataAddr 0)).toNat = (s.reg x).toNat / 100 ∧
    (t.mem.read (s.dataAddr 1)).toNat = (s.reg x).toNat / 10 % 10 ∧
    (t.mem.read (s.dataAddr 2)).toNat = (s.reg x).toNat % 10 ∧
    KeepsMemOutside (s.dataAddr 0) 3 s t ∧ KeepsRegs [] s t ∧ t.i = s.i ∧ TransferFrame s t)

/-- R164, FX55: V0 to VX at I upward, then I advanced by X + 1; every other byte unchanged. Completes when the last address
is in memory (decision D4). -/
def Obligations.RegisterBlockIsStored : Prop := ∀ (x : Reg) (s : State),
  HasPattern (.ldMemVx x) 0xF0FF#16 0xF055#16 ∧
  (MemCanonical s → s.dataAddr x.val ≤ 0xFFF → ∃ t, exec (.ldMemVx x) s = .next t ∧
    (∀ k : Reg, k.val ≤ x.val → t.mem.read (s.dataAddr k.val) = s.reg k) ∧
    KeepsMemOutside (s.dataAddr 0) (x.val + 1) s t ∧ KeepsRegs [] s t ∧ t.i.toNat = s.i.toNat + x.val + 1 ∧
    TransferFrame s t)

/-- R165, FX65: V0 to VX from I upward, then I advanced by X + 1; the registers above VX and memory unchanged. Completes
when the last address is in memory (decision D4). -/
def Obligations.RegisterBlockIsLoaded : Prop := ∀ (x : Reg) (s : State),
  HasPattern (.ldVxMem x) 0xF0FF#16 0xF065#16 ∧
  (s.dataAddr x.val ≤ 0xFFF → ∃ t, exec (.ldVxMem x) s = .next t ∧
    (∀ k : Reg, k.val ≤ x.val → t.reg k = s.mem.read (s.dataAddr k.val)) ∧
    (∀ k : Reg, x.val < k.val → t.reg k = s.reg k) ∧ KeepsMem s t ∧ t.i.toNat = s.i.toNat + x.val + 1 ∧
    TransferFrame s t)

/-- R234 under decision D4: an access above 0xFFF raises AddressOutOfRange with the highest address of the instruction;
DXYN counts only the rows not clipped at the bottom (decision D16). -/
def Obligations.AccessAboveMemoryRaisesAddressOutOfRange : Prop := ∀ (x y : Reg) (n : BitVec 4) (s : State),
  (s.dataAddr 2 > 0xFFF → exec (.ldB x) s = .fault (.addressOutOfRange (s.dataAddr 2))) ∧
  (s.dataAddr x.val > 0xFFF → exec (.ldMemVx x) s = .fault (.addressOutOfRange (s.dataAddr x.val))) ∧
  (s.dataAddr x.val > 0xFFF → exec (.ldVxMem x) s = .fault (.addressOutOfRange (s.dataAddr x.val))) ∧
  (¬SpriteInMemory s y n → exec (.drw x y n) s =
    .fault (.addressOutOfRange (s.dataAddr (min n.toNat (32 - (s.reg y).toNat % 32) - 1))))

/-- 20_memory.md R62: two bytes FX55 stores are the instruction bytes of a fetch from their address in the state after it. -/
def Obligations.StoredBytesAreFetched : Prop := ∀ (x : Reg) (k : Nat) (s t : State),
  MemCanonical s → exec (.ldMemVx x) s = .next t → (h : k + 1 ≤ x.val) → t.pc.toNat = s.dataAddr k →
    t.fetch = .ok (s.reg ⟨k, by omega⟩, s.reg ⟨k + 1, by omega⟩)

/-! ### Display (43_display.md) -/

/-- R181, 00E0: every pixel is off, `redraw_needed` is true, VF (an inference the spec marks as its own) and everything
else unchanged. -/
def Obligations.ClearScreenTurnsEveryPixelOff : Prop := ∀ s : State,
  HasPattern .cls 0xFFFF#16 0x00E0#16 ∧
  ∃ t, exec .cls s = .next t ∧ (∀ x < 64, ∀ y < 32, px t.display x y = false) ∧
    (∀ k, (h : k < 256) → t.display[k] = 0#8) ∧ KeepsRegs [] s t ∧ ScreenFrame s t

/-- R182, DXYN, when the drawn rows are in memory (decisions D4, D12, D16, D18): every pixel is XORed with
the sprite bit on it, VF is 1 iff a sprite bit fell on a lit pixel and 0 otherwise; the coordinates are the registers'
values before VF is written. -/
def Obligations.DrawXorsSpriteAndReportsCollision : Prop := ∀ (x y : Reg) (n : BitVec 4) (s : State),
  HasPattern (.drw x y n) 0xF000#16 0xD000#16 ∧
  (SpriteInMemory s y n → ∃ t, exec (.drw x y n) s = .next t ∧
    (∀ cx < 64, ∀ cy < 32, (px t.display cx cy = true ↔ ¬(px s.display cx cy = true ↔ spriteAt s x y n cx cy))) ∧
    ((∃ cx < 64, ∃ cy < 32, spriteAt s x y n cx cy ∧ px s.display cx cy = true) → t.reg VF = 1#8) ∧
    (¬(∃ cx < 64, ∃ cy < 32, spriteAt s x y n cx cy ∧ px s.display cx cy = true) → t.reg VF = 0#8) ∧
    KeepsRegs [VF] s t ∧ ScreenFrame s t)

/-- R183: drawing the same sprite twice restores the display, and the second draw collides iff the first set a pixel. -/
def Obligations.DrawingTwiceRestoresTheDisplay : Prop := ∀ (x y : Reg) (n : BitVec 4) (s t : State),
  x ≠ VF → y ≠ VF → exec (.drw x y n) s = .next t →
    ∃ u, exec (.drw x y n) t = .next u ∧ u.display = s.display ∧
      (u.reg VF = 1#8 ↔ ∃ cx < 64, ∃ cy < 32, px s.display cx cy = false ∧ px t.display cx cy = true)

/-- 43_display.md section 3 (R184, an inference the spec marks as its own, from R182 and 00_scope.md R6): a pixel changes
only by 00E0 or by a DXYN in whose clipped rectangle it lies. -/
def Obligations.PixelsChangeOnlyInsideTheSprite : Prop := ∀ (i : Instr) (s t : State) (cx cy : Nat),
  cx < 64 → cy < 32 → exec i s = .next t → px t.display cx cy ≠ px s.display cx cy →
    i = .cls ∨ ∃ x y n, i = .drw x y n ∧
      (s.reg x).toNat % 64 ≤ cx ∧ cx ≤ min ((s.reg x).toNat % 64 + 7) 63 ∧
      (s.reg y).toNat % 32 ≤ cy ∧ cy < min ((s.reg y).toNat % 32 + n.toNat) 32

/-! ### Keypad and timers (44_keypad_timers.md) -/

/-- R200, R201 and R211 under decision D8 (KEY_INDEX = low_nibble): EX9E skips iff the key in the low nibble of VX is held,
EXA1 iff it is not; nothing else changes. -/
def Obligations.KeySkipsTestTheLowNibble : Prop := ∀ (x : Reg) (s : State),
  (HasPattern (.skp x) 0xF0FF#16 0xE09E#16 ∧
    SkipsIf (.skp x) (s.keypad.getLsbD ((s.reg x).toNat % 16) = true) s) ∧
  (HasPattern (.sknp x) 0xF0FF#16 0xE0A1#16 ∧
    SkipsIf (.sknp x) (s.keypad.getLsbD ((s.reg x).toNat % 16) = false) s)

/-- R202, R203, R210: FX07 copies DT to VX, FX15 VX to DT, FX18 VX to ST; nothing else changes. -/
def Obligations.TimerInstructionsCopyDirectly : Prop := ∀ (x : Reg) (s : State),
  (HasPattern (.ldVxDt x) 0xF0FF#16 0xF007#16 ∧ WritesRegister (.ldVxDt x) x s.dt s) ∧
  (HasPattern (.ldDtVx x) 0xF0FF#16 0xF015#16 ∧ ∃ t, exec (.ldDtVx x) s = .next t ∧ t.dt = s.reg x ∧ t.st = s.st ∧
    t.pc = s.pc + 2#16 ∧ t.redraw = false ∧ KeepsRegs [] s t ∧ KeepsMem s t ∧ t.i = s.i ∧ KeepsStack s t ∧
    KeepsScreen s t ∧ KeepsKeys s t ∧ KeepsHost s t) ∧
  (HasPattern (.ldStVx x) 0xF0FF#16 0xF018#16 ∧ ∃ t, exec (.ldStVx x) s = .next t ∧ t.st = s.reg x ∧ t.dt = s.dt ∧
    t.pc = s.pc + 2#16 ∧ t.redraw = false ∧ KeepsRegs [] s t ∧ KeepsMem s t ∧ t.i = s.i ∧ KeepsStack s t ∧
    KeepsScreen s t ∧ KeepsKeys s t ∧ KeepsHost s t)

/-- R204, FX0A: with a code in the latch, VX receives it, the latch is NONE and `pc` advances; with NONE or WANT_EVENT the
latch is WANT_EVENT and `pc` and every register stay. -/
def Obligations.KeyWaitDeliversOrStays : Prop := ∀ (x : Reg) (s : State),
  HasPattern (.ldVxK x) 0xF0FF#16 0xF00A#16 ∧
  (∀ k : Key, s.latch = .key k → ∃ t, exec (.ldVxK x) s = .next t ∧ (t.reg x).toNat = k.val ∧ t.latch = .none ∧
    t.pc = s.pc + 2#16 ∧ t.keypad = s.keypad ∧ t.redraw = false ∧ KeepsRegs [x] s t ∧ KeepsMem s t ∧ t.i = s.i ∧
    KeepsStack s t ∧ KeepsTimers s t ∧ KeepsScreen s t ∧ KeepsHost s t) ∧
  (s.latch = .none ∨ s.latch = .wantEvent → ∃ t, exec (.ldVxK x) s = .next t ∧ t.latch = .wantEvent ∧
    t.pc = s.pc ∧ t.keypad = s.keypad ∧ t.redraw = false ∧ KeepsRegs [] s t ∧ KeepsMem s t ∧ t.i = s.i ∧
    KeepsStack s t ∧ KeepsTimers s t ∧ KeepsScreen s t ∧ KeepsHost s t)

/-- R205, the KEY_UP, KEY_DOWN and RESET rows of the latch's table, as transactions of the machine (decision D14: the
release of a key that is not held captures nothing; the first release wins). -/
def Obligations.LatchFollowsItsTransitionTable : Prop := ∀ (s : State) (j : Key) (rest : List Transaction),
  (s.inbox = .keyUp j :: rest → ∃ t, step s = .next t ∧
    (s.latch = .wantEvent → s.keypad.getLsbD j.val = true → t.latch = .key j) ∧
    (s.latch = .wantEvent → s.keypad.getLsbD j.val = false → t.latch = .wantEvent) ∧
    (s.latch = .none → t.latch = .none) ∧ (∀ k, s.latch = .key k → t.latch = .key k)) ∧
  (s.inbox = .keyDown j :: rest → ∃ t, step s = .next t ∧ t.latch = s.latch) ∧
  (s.inbox = .reset :: rest → ∃ t, step s = .next t ∧ t.latch = .none)

/-- R209, TICK: DT and ST count down, each floored at 0, and nothing else of the machine changes. -/
def Obligations.TickCountsTimersDownToZero : Prop := ∀ (s : State) (rest : List Transaction),
  s.inbox = .tick :: rest → ∃ t, step s = .next t ∧
    t.dt.toNat = s.dt.toNat - 1 ∧ t.st.toNat = s.st.toNat - 1 ∧
    KeepsRegs [] s t ∧ KeepsMem s t ∧ t.i = s.i ∧ t.pc = s.pc ∧ KeepsStack s t ∧ KeepsScreen s t ∧ KeepsKeys s t ∧
    t.inbox = rest

/-- R207, KEY_DOWN(k): bit k of the keypad is set, and nothing else of the machine changes. -/
def Obligations.KeyDownSetsItsBit : Prop := ∀ (s : State) (k : Key) (rest : List Transaction),
  s.inbox = .keyDown k :: rest → ∃ t, step s = .next t ∧
    (∀ j : Key, t.keypad.getLsbD j.val = (decide (j = k) || s.keypad.getLsbD j.val)) ∧ t.latch = s.latch ∧
    KeepsRegs [] s t ∧ KeepsMem s t ∧ t.i = s.i ∧ t.pc = s.pc ∧ KeepsStack s t ∧ KeepsTimers s t ∧ KeepsScreen s t ∧
    t.inbox = rest

/-- R208, KEY_UP(k): bit k of the keypad is cleared, and a waiting latch captures k if the key was held (decision D14);
nothing else of the machine changes. -/
def Obligations.KeyUpClearsItsBitAndCaptures : Prop := ∀ (s : State) (k : Key) (rest : List Transaction),
  s.inbox = .keyUp k :: rest → ∃ t, step s = .next t ∧
    (∀ j : Key, t.keypad.getLsbD j.val = (!decide (j = k) && s.keypad.getLsbD j.val)) ∧
    t.latch = (if s.latch = .wantEvent ∧ s.keypad.getLsbD k.val = true then .key k else s.latch) ∧
    KeepsRegs [] s t ∧ KeepsMem s t ∧ t.i = s.i ∧ t.pc = s.pc ∧ KeepsStack s t ∧ KeepsTimers s t ∧ KeepsScreen s t ∧
    t.inbox = rest

/-! ### Reset, load, display read (10_state.md, 70_reset_and_hazards.md) -/

/-- R260: the state RESET leaves. pc, sp, latch and the font's place are the document's; the zeros are the spec's decision
D7 (notes/assumptions/7.md). The font is all sixteen glyphs of R261: glyph 0 is the document's, the bytes of glyphs 1 to F
and their order are the spec's from general knowledge (notes/assumptions/8.md). -/
def Obligations.ResetStateHasTheResetValues : Prop :=
  State.reset.pc = 0x200#16 ∧ State.reset.sp.val = 16 ∧ State.reset.latch = .none ∧ (∀ q : Reg, State.reset.reg q = 0#8) ∧
    State.reset.i = 0#16 ∧ State.reset.dt = 0#8 ∧ State.reset.st = 0#8 ∧ State.reset.keypad = 0#16 ∧
    (∀ k, (h : k < 16) → State.reset.stack[k] = 0#16) ∧ (∀ x < 64, ∀ y < 32, px State.reset.display x y = false) ∧
    (∀ a, 0x50 ≤ a → State.reset.mem.read a = 0#8) ∧
    (List.range 16).map (fun d => State.reset.mem.readList (5 * d) 5) =
      [[0xF0#8, 0x90#8, 0x90#8, 0x90#8, 0xF0#8], [0x20#8, 0x60#8, 0x20#8, 0x20#8, 0x70#8],
       [0xF0#8, 0x10#8, 0xF0#8, 0x80#8, 0xF0#8], [0xF0#8, 0x10#8, 0xF0#8, 0x10#8, 0xF0#8]] ++
      [[0x90#8, 0x90#8, 0xF0#8, 0x10#8, 0x10#8], [0xF0#8, 0x80#8, 0xF0#8, 0x10#8, 0xF0#8],
       [0xF0#8, 0x80#8, 0xF0#8, 0x90#8, 0xF0#8], [0xF0#8, 0x10#8, 0x20#8, 0x40#8, 0x40#8]] ++
      [[0xF0#8, 0x90#8, 0xF0#8, 0x90#8, 0xF0#8], [0xF0#8, 0x90#8, 0xF0#8, 0x10#8, 0xF0#8],
       [0xF0#8, 0x90#8, 0xF0#8, 0x90#8, 0x90#8], [0xE0#8, 0x90#8, 0xE0#8, 0x90#8, 0xE0#8]] ++
      [[0xF0#8, 0x80#8, 0x80#8, 0x80#8, 0xF0#8], [0xE0#8, 0x90#8, 0x90#8, 0x90#8, 0xE0#8],
       [0xF0#8, 0x80#8, 0xF0#8, 0x80#8, 0xF0#8], [0xF0#8, 0x80#8, 0xF0#8, 0x80#8, 0x80#8]]

/-- R262: RESET at any time puts every element of the machine at its reset value (decision D7, notes/assumptions/7.md), a
loaded program included; that the boot order starts again and that the host's further transactions are not the machine's
are the model's choices (notes/assumptions/4.md, notes/assumptions/2.md). -/
def Obligations.ResetDiscardsEverything : Prop := ∀ (s : State) (rest : List Transaction),
  s.inbox = .reset :: rest → ∃ t, step s = .next t ∧ SameMachine State.reset t ∧ t.phase = .reset ∧ t.inbox = rest

/-- R263, R264 and decision D23: LOAD of up to 3584 bytes right after RESET copies them from 0x200 upward and changes
nothing else; a longer one, and one after a LOAD or a STEP, is refused (a second LOAD before a STEP: the model's reading
of "LOAD once", notes/assumptions/4.md). Right after RESET means before another LOAD and before a STEP: what TICK,
KEY_DOWN, KEY_UP and DISPLAY_READ do before a LOAD is the model's choice (notes/assumptions/4.md). -/
def Obligations.LoadCopiesTheImageOrIsRefused : Prop := ∀ (s : State) (rom : List Byte) (rest : List Transaction),
  s.inbox = .load rom :: rest →
    (MemCanonical s → rom.length ≤ 3584 → s.phase = .reset → ∃ t, step s = .next t ∧
      (∀ k, (h : k < rom.length) → t.mem.read (0x200 + k) = rom[k]) ∧ KeepsMemOutside 0x200 rom.length s t ∧
      KeepsRegs [] s t ∧ t.i = s.i ∧ t.pc = s.pc ∧ KeepsStack s t ∧ KeepsTimers s t ∧ KeepsScreen s t ∧ KeepsKeys s t ∧
      t.inbox = rest ∧ t.phase = .loaded) ∧
    (rom.length > 3584 → step s = .refused .romTooLong) ∧
    (rom.length ≤ 3584 → s.phase ≠ .reset → step s = .refused .loadOutOfOrder)

/-- R31: DISPLAY_READ returns the 256 bytes, in which pixel (x, y) is bit 7 - (x mod 8) of byte 8y + x div 8 (R30, an
inference the spec marks as its own), and changes nothing of the machine; and no transaction of the host's but RESET and
STEP changes the display. -/
def Obligations.DisplayReadReturnsTheBytes : Prop := ∀ (s : State) (rest : List Transaction),
  (s.inbox = .displayRead :: rest → ∃ t d, step s = .next t ∧ t.shown = some d ∧
    (∀ x < 64, ∀ y < 32, ∃ h : y * 8 + x / 8 < 256, d[y * 8 + x / 8].getLsbD (7 - x % 8) = px s.display x y) ∧
    SameMachine s t ∧ t.inbox = rest) ∧
  (∀ tr t, s.inbox = tr :: rest → tr ≠ .reset → (∀ r, tr ≠ .step r) → step s = .next t → KeepsScreen s t)

/-! ### STEP and the fatal conditions (00_scope.md, 60_exceptions.md) -/

/-- 00_scope.md R8: a STEP runs the instruction at `pc`: it is exec of the decoded instruction with the random input
presented. The model's choices, no rule of the spec: an empty host's list is a STEP (`StepsWith`, notes/assumptions/2.md)
with a free input (notes/assumptions/1.md); `recordStep` holds the `instr` output in State (notes/assumptions/3.md) and
ends the boot phase (notes/assumptions/4.md). -/
def Obligations.StepRunsTheDecodedInstruction : Prop := ∀ (s u : State) (r : Byte) (i : Instr),
  StepsWith s r u → InstructionAtPc s i →
    (∀ t, exec i (withRnd r u) = .next t →
      step s = .next (recordStep (s.mem.read s.pc.toNat) (s.mem.read (s.pc.toNat + 1)) i t)) ∧
    (∀ f, exec i (withRnd r u) = .fault f → step s = .fault f)

/-- 60_exceptions.md R235, an inference the spec marks as its own (decisions D4, D20): the condition met first wins: the
fetch's, whatever the bytes are; then the decoder's. That an empty host's list is a STEP too (`StepsWith`) is the model's
choice (notes/assumptions/2.md). -/
def Obligations.FetchFaultsBeforeDecodeFaults : Prop := ∀ (s u : State) (r : Byte), StepsWith s r u →
  (s.pc.toNat = 0xFFF → step s = .fault (.addressOutOfRange 0x1000)) ∧
  (s.pc.toNat > 0xFFF → step s = .fault (.addressOutOfRange s.pc.toNat)) ∧
  (∀ w, s.pc.toNat ≤ 0xFFE →
    decode (s.mem.read s.pc.toNat) (s.mem.read (s.pc.toNat + 1)) = .error (.unknownOpcode w) →
    step s = .fault (.unknownOpcode w) ∧
      w.toNat = (s.mem.read s.pc.toNat).toNat * 256 + (s.mem.read (s.pc.toNat + 1)).toNat)

/-- 60_exceptions.md R230 (decisions D2 of SYS, D4 and D16 of the addresses): the complete list: which instruction raises which condition at execute, and when; no other
instruction raises anything, and none is refused. -/
def Obligations.OnlyListedInstructionsFault : Prop := ∀ (i : Instr) (s : State),
  (∀ f, exec i s = .fault f →
    (∃ nnn, i = .sys nnn ∧ f = .unknownOpcode (encode i)) ∨
    (∃ nnn, i = .call nnn ∧ f = .stackOverflow ∧ s.sp.val = 0) ∨
    (i = .ret ∧ f = .stackUnderflow ∧ s.sp.val = 16) ∨
    ∃ a > 0xFFF, f = .addressOutOfRange a ∧
      ((∃ x y n, i = .drw x y n ∧ ¬SpriteInMemory s y n) ∨ (∃ x, i = .ldB x ∧ s.dataAddr 2 > 0xFFF) ∨
        ∃ x : Reg, (i = .ldMemVx x ∨ i = .ldVxMem x) ∧ s.dataAddr x.val > 0xFFF)) ∧
  (∀ r, exec i s ≠ .refused r)

/-- 60_exceptions.md section 3 (the sentence of R237 that is an inference the spec marks as its own): a STEP that faults
faults again with the same condition, whatever its random input, as long as nothing but the host's keys and TICKs has come
between. The model's choices, no rule of the spec: a fault carries no next state, so the state to go on from is the one
before it (notes/assumptions/17.md, over decision D5), and an empty host's list is a STEP too (`StepsWith`,
notes/assumptions/2.md). -/
def Obligations.FaultingStepFaultsAgain : Prop := ∀ (s t u w : State) (r r' : Byte) (f : Fault),
  StepsWith s r u → step s = .fault f → StepsWith t r' w → KeepsRegs [] s t → t.mem = s.mem → t.i = s.i → t.pc = s.pc →
    KeepsStack s t → step t = .fault f

/-- 00_scope.md R8 under decision D13: `redraw_needed` is true for every completed 00E0 and DXYN and false for every other
instruction. -/
def Obligations.RedrawIsNeededExactlyForClearAndDraw : Prop := ∀ (i : Instr) (s t : State), exec i s = .next t →
  (t.redraw = true ↔ i = .cls ∨ ∃ x y n, i = .drw x y n)

/-- 70_reset_and_hazards.md R270: a STEP of a JP to its own address completes and leaves the machine as it is. That an
empty host's list is a STEP too (`StepsWith`) is the model's choice (notes/assumptions/2.md). -/
def Obligations.SelfJumpIsAFixedPoint : Prop := ∀ (s u : State) (r : Byte) (nnn : BitVec 12),
  StepsWith s r u → InstructionAtPc s (.jp nnn) → nnn.toNat = s.pc.toNat → ∃ t, step s = .next t ∧ SameMachine s t

/-! ### Encoding (30_encoding.md) -/

/-- R90: words written out from the patterns decode to the instructions they stand for; that 5121 is unknown is the spec's
decision D3 (notes/assumptions/9.md). -/
def Obligations.WrittenWordsDecode : Prop :=
  decode 0x00#8 0xE0#8 = .ok .cls ∧ decode 0x22#8 0x40#8 = .ok (.call 0x240#12) ∧
    decode 0x8A#8 0xB7#8 = .ok (.subn 10 11) ∧ decode 0x63#8 0x2A#8 = .ok (.ldImm 3 0x2A#8) ∧
    decode 0xD1#8 0x25#8 = .ok (.drw 1 2 5#4) ∧ decode 0xE5#8 0xA1#8 = .ok (.sknp 5) ∧
    decode 0xF2#8 0x55#8 = .ok (.ldMemVx 2) ∧ decode 0x51#8 0x21#8 = .error (.unknownOpcode 0x5121#16)

/-- R82, R90: decoding the two bytes of any well-formed instruction gives it back, with every operand. -/
def Obligations.DecodeInvertsEncode : Prop := ∀ i : Instr, i.wf = true →
  decode (encodeBytes i).1 (encodeBytes i).2 = .ok i

/-- R91, an inference the spec marks as its own: each word has one meaning: an instruction the decoder gives is
well-formed and its word is the one decoded. -/
def Obligations.EncodeInvertsDecode : Prop := ∀ (w : Word) (i : Instr),
  decodeWord w = .ok i → i.wf = true ∧ encode i = w

/-- R90: the decode tree gives an instruction exactly when some row of the opcode map matches the word, and then it is the
instruction of the first such row; otherwise the word is unknown, by name (5XYn: decision D3, notes/assumptions/9.md). -/
def Obligations.DecodeTreeAgreesWithOpcodeMap : Prop := ∀ w : Word,
  (∀ i, decodeWord w = .ok i → opcodeRow w = some i.pattern) ∧
  (∀ e, decodeWord w = .error e → opcodeRow w = none ∧ e = .unknownOpcode w)

/-! ### Whole-machine rules -/

/-- 10_state.md R36: a STEP never changes the keypad; TICK changes only DT and ST; KEY_DOWN only the keypad; KEY_UP only
the keypad and the latch; DISPLAY_READ nothing. -/
def Obligations.TransactionsChangeOnlyTheirOwnState : Prop := ∀ (s t : State) (tr : Transaction) (rest : List Transaction),
  s.inbox = tr :: rest → step s = .next t →
    (∀ r, tr = .step r → t.keypad = s.keypad) ∧
    (tr = .tick ∨ (∃ k, tr = .keyDown k) ∨ (∃ k, tr = .keyUp k) ∨ tr = .displayRead →
      KeepsRegs [] s t ∧ KeepsMem s t ∧ t.i = s.i ∧ t.pc = s.pc ∧ KeepsStack s t ∧ KeepsScreen s t) ∧
    (tr = .tick → KeepsKeys s t) ∧
    (∀ k, tr = .keyDown k → KeepsTimers s t ∧ t.latch = s.latch) ∧
    (∀ k, tr = .keyUp k → KeepsTimers s t) ∧
    (tr = .displayRead → KeepsTimers s t ∧ KeepsKeys s t)

/-- 10_state.md R24, R27 to R30, R33 and 20_memory.md R50: each element is written by the instructions its rule names and by
no other. -/
def Obligations.StateElementsHaveTheirOwnWriters : Prop := ∀ (i : Instr) (s t : State), exec i s = .next t →
  (t.mem ≠ s.mem → ∃ x, i = .ldB x ∨ i = .ldMemVx x) ∧
  (t.i ≠ s.i → (∃ nnn, i = .ldI nnn) ∨ ∃ x, i = .addI x ∨ i = .ldF x ∨ i = .ldMemVx x ∨ i = .ldVxMem x) ∧
  (t.sp ≠ s.sp ∨ t.stack ≠ s.stack → i = .ret ∨ ∃ nnn, i = .call nnn) ∧
  (t.dt ≠ s.dt → ∃ x, i = .ldDtVx x) ∧
  (t.st ≠ s.st → ∃ x, i = .ldStVx x) ∧
  (t.display ≠ s.display → i = .cls ∨ ∃ x y n, i = .drw x y n) ∧
  (t.latch ≠ s.latch → ∃ x, i = .ldVxK x) ∧
  t.keypad = s.keypad

/-- 10_state.md R23: VF changes only by the instructions that write it as a flag and by those that name F as destination. -/
def Obligations.VFHasTheListedWriters : Prop := ∀ (i : Instr) (s t : State), exec i s = .next t → t.reg VF ≠ s.reg VF →
  (∃ x y, i = .orReg x y ∨ i = .andReg x y ∨ i = .xorReg x y ∨ i = .addReg x y ∨ i = .subReg x y ∨ i = .shr x y ∨
    i = .subn x y ∨ i = .shl x y ∨ ∃ n, i = .drw x y n) ∨
  (∃ nn, i = .ldImm VF nn ∨ i = .addImm VF nn ∨ i = .rnd VF nn) ∨ (∃ y, i = .ldReg VF y) ∨
  i = .ldVxDt VF ∨ i = .ldVxK VF ∨ i = .ldVxMem VF

/-! ### Invariants every transaction keeps -/

/-- Memory stays in its canonical form (the model's data; 20_memory.md R50 for its bounds). -/
def Obligations.EveryStepKeepsMemoryCanonical : Prop := ∀ s t : State,
  MemCanonical s → step s = .next t → MemCanonical t

/-- 10_state.md R26, an inference the spec marks as its own (over decisions D4, D10): `pc` never passes 0x10FE, and live
return records stay addresses of instructions in memory. -/
def Obligations.EveryStepKeepsPcBounded : Prop := ∀ s t : State, PcBounded s → step s = .next t → PcBounded t

/-- 44_keypad_timers.md R206, an inference the spec marks as its own: while the latch is armed or holds a code, the
instruction at `pc` is an FX0A. -/
def Obligations.EveryStepKeepsTheLatchAtItsWait : Prop := ∀ s t : State,
  LatchWaits s → step s = .next t → LatchWaits t

/-- The state RESET leaves meets the three invariants. -/
def Obligations.ResetStateMeetsTheInvariants : Prop :=
  MemCanonical State.reset ∧ PcBounded State.reset ∧ LatchWaits State.reset
end

