-- ==== Sys2Proof/Laws/Alu.lean ====
section
/-! SUPPORT. The operand forms and the 8-bit ALU as arithmetic on numbers (40_load_alu.md R122). -/

namespace Sys2Proof.Machine

/-! ### Operands -/

@[simp] theorem zext12_toNat (nnn : BitVec 12) : (zext12 nnn).toNat = nnn.toNat := by
  have := nnn.isLt
  simp [zext12]; omega

@[simp] theorem zext8_toNat (b : Byte) : (zext8 b).toNat = b.toNat := by
  have := b.isLt
  simp [zext8]; omega

@[simp] theorem lowNibble_val (b : Byte) : (lowNibble b).val = b.toNat % 16 := rfl

theorem glyphAddr_toNat (b : Byte) : (glyphAddr b).toNat = 5 * (b.toNat % 16) := by
  simp [glyphAddr]; omega

theorem bcdDigits_toNat (b : Byte) :
    (bcdDigits b).map BitVec.toNat = [b.toNat / 100, b.toNat / 10 % 10, b.toNat % 10] := by
  have := b.isLt
  simp [bcdDigits]; omega

@[simp] theorem bcdDigits_length (b : Byte) : (bcdDigits b).length = 3 := rfl

theorem startColumn_lt (b : Byte) : startColumn b < 64 := Nat.mod_lt _ (by decide)

theorem startRow_lt (b : Byte) : startRow b < 32 := Nat.mod_lt _ (by decide)

/-- A drawn row is one of the sprite's and lies on the display. -/
theorem lt_drawnRows {n : BitVec 4} {y0 k : Nat} : k < drawnRows n y0 ↔ k < n.toNat ∧ y0 + k < 32 := by
  simp only [drawnRows, Config.dispH]; omega

/-! ### The ALU (40_load_alu.md R122) -/

@[simp] theorem flagByte_eq_one (b : Bool) : flagByte b = 1#8 ↔ b = true := by cases b <;> simp [flagByte]

@[simp] theorem flagByte_eq_zero (b : Bool) : flagByte b = 0#8 ↔ b = false := by cases b <;> simp [flagByte]

theorem aluAdd_toNat (a b : Byte) : (aluAdd a b).1.toNat = (a.toNat + b.toNat) % 256 := by simp [aluAdd]

/-- The two readings of ADD's flag agree: the sum exceeds 255 iff the wrapped sum is below the first operand (R116). -/
theorem carry_iff_wrapped_lt (a b : Byte) : a.toNat + b.toNat > 255 ↔ (a.toNat + b.toNat) % 256 < a.toNat := by
  have := a.isLt
  have := b.isLt
  omega

theorem aluSub_toNat (m k : Byte) : (aluSub m k).1.toNat = (m.toNat + 256 - k.toNat) % 256 := by simp [aluSub]

theorem aluSub_eq (m k : Byte) : (aluSub m k).1 = m - k := by
  have := m.isLt
  have := k.isLt
  apply BitVec.eq_of_toNat_eq
  simp [aluSub, BitVec.toNat_sub]; omega

theorem aluAdd_eq (a b : Byte) : (aluAdd a b).1 = a + b := by
  apply BitVec.eq_of_toNat_eq
  simp [aluAdd]

theorem aluShr_toNat (a : Byte) : (aluShr a).1.toNat = a.toNat / 2 := by
  have := a.isLt
  simp [aluShr]; omega

theorem aluShl_toNat (a : Byte) : (aluShl a).1.toNat = a.toNat * 2 % 256 := by simp [aluShl]

end Sys2Proof.Machine
end

