-- ==== Sys2Proof/Laws/Compositor.lean ====
section
/-! SUPPORT. The compositor pixel by pixel: what one pixel, one row and a whole draw change, and when a draw collides
(43_display.md R180 to R184). -/

namespace Sys2Proof.Machine

theorem pxByte_lt {x y : Nat} (hx : x < 64) (hy : y < 32) : pxByte x y < 256 := by unfold pxByte; omega

/-- Setting one bit of a byte changes that bit and no other. -/
theorem getLsbD_setBit (u : Byte) {k j : Nat} (hj : j < 8) (b : Bool) :
    (setBit u k b).getLsbD j = if j = k then b else u.getLsbD j := by
  by_cases h : j = k
  · subst h; cases b <;> simp [setBit, hj]
  · cases b <;> simp [setBit, h, hj, Nat.sub_eq_zero_iff_le]; omega

/-- Writing one pixel changes that pixel and no other. -/
theorem px_setPx (d : Display) {x y x' y' : Nat} (hx : x < 64) (hy : y < 32) (b : Bool) (hx' : x' < 64) (hy' : y' < 32) :
    px (setPx d x y b) x' y' = if x' = x ∧ y' = y then b else px d x' y' := by
  have h1 := pxByte_lt hx hy
  have h2 := pxByte_lt hx' hy'
  simp only [px, setPx, Vector.getElem?_setIfInBounds]
  by_cases hb : pxByte x y = pxByte x' y'
  · rw [if_pos hb, if_pos h1, Option.getD_some, getLsbD_setBit _ (by unfold pxBit; omega)]
    have : pxBit x' = pxBit x ↔ x' = x ∧ y' = y := by unfold pxByte at hb; unfold pxBit; omega
    simp only [this, hb]
  · rw [if_neg hb, if_neg (by rintro ⟨rfl, rfl⟩; exact hb rfl)]

/-- One drawn pixel: XOR at its place, nothing elsewhere. -/
theorem px_drawPixel (a : Display × Bool) {x y x' y' : Nat} (hy : y < 32) (bit : Bool) (hx' : x' < 64) (hy' : y' < 32) :
    px (drawPixel x y bit a).1 x' y' = (px a.1 x' y' ^^ (decide (x' = x ∧ y' = y) && bit)) := by
  unfold drawPixel Config.dispW
  split
  · rename_i hx
    rw [px_setPx _ hx hy _ hx' hy']
    by_cases h : x' = x ∧ y' = y
    · obtain ⟨rfl, rfl⟩ := h; simp
    · simp [h]
  · rename_i hx
    simp [show ¬ x' = x by omega]

/-- One drawn pixel collides when its sprite bit is set and it was lit. -/
theorem drawPixel_flag (a : Display × Bool) (x y : Nat) (bit : Bool) :
    (drawPixel x y bit a).2 = true ↔ a.2 = true ∨ x < 64 ∧ bit = true ∧ px a.1 x y = true := by
  unfold drawPixel Config.dispW
  split <;> rename_i hx <;> simp [hx]

/-- A row over any columns without repeats: XOR where a set sprite bit falls. -/
theorem px_foldl_drawPixel (b : Byte) (x0 : Nat) {y : Nat} (hy : y < 32) (cs : List Nat) (hcs : cs.Nodup)
    (a : Display × Bool) {x' y' : Nat} (hx' : x' < 64) (hy' : y' < 32) :
    px (cs.foldl (fun a c => drawPixel (x0 + c) y (b.getLsbD (7 - c)) a) a).1 x' y' =
      (px a.1 x' y' ^^ (decide (y' = y) && cs.any fun c => decide (x' = x0 + c) && b.getLsbD (7 - c))) := by
  induction cs generalizing a with
  | nil => simp
  | cons c cs ih =>
    obtain ⟨hc, hcs⟩ := List.nodup_cons.1 hcs
    rw [List.foldl_cons, ih hcs, px_drawPixel _ hy _ hx' hy', List.any_cons]
    by_cases hxy : y' = y
    · by_cases hx : x' = x0 + c
      · have : (cs.any fun c => decide (x' = x0 + c) && b.getLsbD (7 - c)) = false := by
          rw [List.any_eq_false]
          intro j hj
          have : j ≠ c := by rintro rfl; exact hc hj
          simp [show ¬ x' = x0 + j by omega]
        subst hx; simp only [this, hxy]; simp
      · simp [hx, hxy]
    · simp [hxy]

theorem foldl_drawPixel_flag (b : Byte) (x0 : Nat) {y : Nat} (hy : y < 32) (cs : List Nat) (hcs : cs.Nodup)
    (a : Display × Bool) :
    (cs.foldl (fun a c => drawPixel (x0 + c) y (b.getLsbD (7 - c)) a) a).2 = true ↔
      a.2 = true ∨ ∃ c ∈ cs, x0 + c < 64 ∧ b.getLsbD (7 - c) = true ∧ px a.1 (x0 + c) y = true := by
  induction cs generalizing a with
  | nil => simp
  | cons c cs ih =>
    obtain ⟨hc, hcs⟩ := List.nodup_cons.1 hcs
    have other : ∀ j ∈ cs, x0 + j < 64 → px (drawPixel (x0 + c) y (b.getLsbD (7 - c)) a).1 (x0 + j) y = px a.1 (x0 + j) y := by
      intro j hj hlt
      have : j ≠ c := by rintro rfl; exact hc hj
      rw [px_drawPixel _ hy _ hlt hy, decide_eq_false (by omega)]; simp
    rw [List.foldl_cons, ih hcs, drawPixel_flag, or_assoc]
    refine or_congr Iff.rfl ?_
    constructor
    · rintro (h | ⟨j, hj, hlt, hbit, hpx⟩)
      · exact ⟨c, List.mem_cons_self, h⟩
      · exact ⟨j, List.mem_cons_of_mem _ hj, hlt, hbit, other j hj hlt ▸ hpx⟩
    · rintro ⟨j, hj, hlt, hbit, hpx⟩
      rcases List.mem_cons.1 hj with rfl | hj
      · exact .inl ⟨hlt, hbit, hpx⟩
      · exact .inr ⟨j, hj, hlt, hbit, (other j hj hlt).symm ▸ hpx⟩

theorem any_range_eight (f : Nat → Bool) (x x0 : Nat) :
    ((List.range 8).any fun c => decide (x = x0 + c) && f c) = (decide (x0 ≤ x ∧ x < x0 + 8) && f (x - x0)) := by
  rw [Bool.eq_iff_iff, List.any_eq_true]
  simp only [List.mem_range, Bool.and_eq_true, decide_eq_true_eq]
  constructor
  · rintro ⟨c, hc, rfl, hf⟩
    exact ⟨by omega, by rwa [Nat.add_sub_cancel_left]⟩
  · rintro ⟨h, hf⟩
    exact ⟨x - x0, by omega, by omega, hf⟩

/-- A drawn sprite row (43_display.md R182). -/
theorem px_drawRow (b : Byte) (x0 : Nat) {y : Nat} (hy : y < 32) (a : Display × Bool) {x' y' : Nat} (hx' : x' < 64)
    (hy' : y' < 32) :
    px (drawRow b x0 y a).1 x' y' =
      (px a.1 x' y' ^^ (decide (y' = y) && (decide (x0 ≤ x' ∧ x' < x0 + 8) && b.getLsbD (7 - (x' - x0))))) := by
  rw [drawRow, px_foldl_drawPixel b x0 hy _ List.nodup_range a hx' hy', any_range_eight (fun c => b.getLsbD (7 - c))]

theorem drawRow_flag (b : Byte) (x0 : Nat) {y : Nat} (hy : y < 32) (a : Display × Bool) :
    (drawRow b x0 y a).2 = true ↔
      a.2 = true ∨ ∃ x < 64, (x0 ≤ x ∧ x < x0 + 8) ∧ b.getLsbD (7 - (x - x0)) = true ∧ px a.1 x y = true := by
  rw [drawRow, foldl_drawPixel_flag b x0 hy _ List.nodup_range a]
  refine or_congr Iff.rfl ⟨?_, ?_⟩
  · rintro ⟨c, hc, hlt, hbit, hpx⟩
    rw [List.mem_range] at hc
    exact ⟨x0 + c, hlt, by omega, by rwa [Nat.add_sub_cancel_left], hpx⟩
  · rintro ⟨x, hlt, h, hbit, hpx⟩
    exact ⟨x - x0, List.mem_range.2 (by omega), by omega, hbit, by rwa [Nat.add_sub_cancel' h.1]⟩

/-- The sprite bit that falls on pixel (x, y), for rows drawn downward from row `y0` at column `x0`. -/
def rowsBit (bs : List Byte) (x0 y0 x y : Nat) : Bool :=
  decide (x0 ≤ x ∧ x < x0 + 8) && decide (y0 ≤ y ∧ y < y0 + bs.length) && (bs.getD (y - y0) 0#8).getLsbD (7 - (x - x0))

/-- A list of rows is its first row and the rest, one row lower. -/
theorem rowsBit_cons (b : Byte) (bs : List Byte) (x0 y0 x y : Nat) :
    rowsBit (b :: bs) x0 y0 x y =
      if y = y0 then decide (x0 ≤ x ∧ x < x0 + 8) && b.getLsbD (7 - (x - x0)) else rowsBit bs x0 (y0 + 1) x y := by
  unfold rowsBit
  split
  · rename_i h; subst h; simp
  · rename_i h
    by_cases hy : y0 + 1 ≤ y
    · obtain ⟨k, rfl⟩ : ∃ k, y = y0 + 1 + k := ⟨y - y0 - 1, by omega⟩
      rw [show y0 + 1 + k - y0 = k + 1 by omega, show y0 + 1 + k - (y0 + 1) = k by omega, List.getD_cons_succ,
        List.length_cons]
      congr 2
      exact decide_eq_decide.2 (by omega)
    · rw [decide_eq_false (p := y0 ≤ y ∧ _) (by omega), decide_eq_false (p := y0 + 1 ≤ y ∧ _) (by omega)]; simp

theorem rowsBit_above (bs : List Byte) {x0 y0 x y : Nat} (h : y < y0) : rowsBit bs x0 y0 x y = false := by
  simp [rowsBit, show ¬ y0 ≤ y by omega]

theorem px_drawRows (x0 : Nat) (bs : List Byte) {y0 : Nat} (hrows : y0 + bs.length ≤ 32) (a : Display × Bool)
    {x y : Nat} (hx : x < 64) (hy : y < 32) :
    px (drawRows x0 bs y0 a).1 x y = (px a.1 x y ^^ rowsBit bs x0 y0 x y) := by
  induction bs generalizing y0 a with
  | nil => simp [drawRows, rowsBit, show ¬ (y0 ≤ y ∧ y < y0) by omega]
  | cons b bs ih =>
    rw [List.length_cons] at hrows
    rw [drawRows, ih (by omega), px_drawRow b x0 (by omega) a hx hy, rowsBit_cons]
    split
    · rename_i h; subst h; rw [rowsBit_above bs (by omega)]; simp
    · rename_i h; simp [h]

/-- The display after a draw: every pixel XORed with the sprite bit that falls on it (43_display.md R182). -/
theorem px_blit (d : Display) (bs : List Byte) (x0 : Nat) {y0 : Nat} (hrows : y0 + bs.length ≤ 32) {x y : Nat}
    (hx : x < 64) (hy : y < 32) : px (blit d bs x0 y0).1 x y = (px d x y ^^ rowsBit bs x0 y0 x y) :=
  px_drawRows x0 bs hrows (d, false) hx hy

theorem drawRows_flag (x0 : Nat) (bs : List Byte) {y0 : Nat} (hrows : y0 + bs.length ≤ 32) (a : Display × Bool) :
    (drawRows x0 bs y0 a).2 = true ↔
      a.2 = true ∨ ∃ x < 64, ∃ y < 32, rowsBit bs x0 y0 x y = true ∧ px a.1 x y = true := by
  induction bs generalizing y0 a with
  | nil =>
    simp only [drawRows, iff_self_or]
    rintro ⟨x, -, y, -, h, -⟩
    simp [rowsBit, show ¬ (y0 ≤ y ∧ y < y0) by omega] at h
  | cons b bs ih =>
    rw [List.length_cons] at hrows
    rw [drawRows, ih (by omega), drawRow_flag b x0 (by omega), or_assoc]
    refine or_congr Iff.rfl ⟨?_, ?_⟩
    · rintro (⟨x, hx, hin, hbit, hpx⟩ | ⟨x, hx, y, hy, hbit, hpx⟩)
      · refine ⟨x, hx, y0, by omega, ?_, hpx⟩
        rw [rowsBit_cons, if_pos rfl, hbit, decide_eq_true hin]; rfl
      · have hne : y ≠ y0 := by
          rintro rfl; rw [rowsBit_above bs (by omega)] at hbit; exact absurd hbit (by simp)
        refine ⟨x, hx, y, hy, ?_, ?_⟩
        · rwa [rowsBit_cons, if_neg hne]
        · rw [px_drawRow b x0 (by omega) a hx hy] at hpx; simpa [hne] using hpx
    · rintro ⟨x, hx, y, hy, hbit, hpx⟩
      rw [rowsBit_cons] at hbit
      split at hbit
      · rename_i h; subst h
        rw [Bool.and_eq_true, decide_eq_true_eq] at hbit
        exact .inl ⟨x, hx, hbit.1, hbit.2, hpx⟩
      · rename_i hne
        refine .inr ⟨x, hx, y, hy, hbit, ?_⟩
        rw [px_drawRow b x0 (by omega) a hx hy]; simpa [hne] using hpx

/-- A draw collides iff a drawn sprite bit falls on a lit pixel (43_display.md R182). -/
theorem blit_flag (d : Display) (bs : List Byte) (x0 : Nat) {y0 : Nat} (hrows : y0 + bs.length ≤ 32) :
    (blit d bs x0 y0).2 = true ↔ ∃ x < 64, ∃ y < 32, rowsBit bs x0 y0 x y = true ∧ px d x y = true := by
  rw [blit, drawRows_flag x0 bs hrows]; simp

theorem px_clearDisplay (x y : Nat) : px clearDisplay x y = false := by
  unfold px clearDisplay
  by_cases h : pxByte x y < 256 <;> simp [h]

/-- Every pixel decides the display: the 2048 pixels are its 256 bytes (10_state.md R30). -/
theorem display_ext {d d' : Display} (h : ∀ x < 64, ∀ y < 32, px d x y = px d' x y) : d = d' := by
  refine Vector.ext fun k hk => BitVec.eq_of_getLsbD_eq fun j hj => ?_
  have := h (8 * (k % 8) + (7 - j)) (by omega) (k / 8) (by omega)
  simpa [px, show pxByte (8 * (k % 8) + (7 - j)) (k / 8) = k by unfold pxByte; omega,
    show pxBit (8 * (k % 8) + (7 - j)) = j by unfold pxBit; omega, hk] using this

end Sys2Proof.Machine
end

