-- ==== Sys2Proof/Laws/Encoding.lean ====
section
/-! SUPPORT. The instruction formats as arithmetic (30_encoding.md R81, R82): what number a word built from fields is, and
what each field of such a word is. -/

namespace Sys2Proof

/-! ### Words as numbers -/

/-- Concatenation as arithmetic. -/
theorem append_toNat {m n : Nat} (a : BitVec m) (b : BitVec n) : (a ++ b).toNat = a.toNat * 2 ^ n + b.toNat := by
  rw [BitVec.toNat_append, ← Nat.shiftLeft_add_eq_or_of_lt b.isLt, Nat.shiftLeft_eq]

theorem encNNN_toNat (g : BitVec 4) (nnn : BitVec 12) : (encNNN g nnn).toNat = g.toNat * 4096 + nnn.toNat :=
  append_toNat g nnn

theorem encXNN_toNat (g : BitVec 4) (x : Reg) (nn : Byte) :
    (encXNN g x nn).toNat = g.toNat * 4096 + x.val * 256 + nn.toNat := by
  have h1 : (encXNN g x nn).toNat = (g ++ nib x).toNat * 256 + nn.toNat := append_toNat (g ++ nib x) nn
  have h2 : (g ++ nib x).toNat = g.toNat * 16 + x.val := append_toNat g (nib x)
  rw [h1, h2, Nat.add_mul, Nat.mul_assoc]

theorem encXYN_toNat (g : BitVec 4) (x y : Reg) (n : BitVec 4) :
    (encXYN g x y n).toNat = g.toNat * 4096 + x.val * 256 + y.val * 16 + n.toNat := by
  have h1 : (encXYN g x y n).toNat = (g ++ nib x ++ nib y).toNat * 16 + n.toNat := append_toNat (g ++ nib x ++ nib y) n
  have h2 : (g ++ nib x ++ nib y).toNat = (g ++ nib x).toNat * 16 + y.val := append_toNat (g ++ nib x) (nib y)
  have h3 : (g ++ nib x).toNat = g.toNat * 16 + x.val := append_toNat g (nib x)
  rw [h1, h2, h3, Nat.add_mul, Nat.add_mul, Nat.add_mul, Nat.mul_assoc, Nat.mul_assoc, Nat.mul_assoc]

theorem wordOf_toNat (b1 b2 : Byte) : (wordOf b1 b2).toNat = b1.toNat * 256 + b2.toNat := append_toNat b1 b2

/-! ### Fields as numbers -/

theorem slice_toNat (w : Word) (lo len : Nat) : (w.extractLsb' lo len).toNat = w.toNat / 2 ^ lo % 2 ^ len := by
  rw [BitVec.extractLsb'_toNat, Nat.shiftRight_eq_div_pow]

theorem fieldGroup_toNat (w : Word) : (fieldGroup w).toNat = w.toNat / 4096 := by
  have := w.isLt
  rw [fieldGroup, slice_toNat]; omega

theorem fieldX_val (w : Word) : (fieldX w).val = w.toNat / 256 % 16 := slice_toNat w 8 4

theorem fieldY_val (w : Word) : (fieldY w).val = w.toNat / 16 % 16 := slice_toNat w 4 4

theorem fieldN_toNat (w : Word) : (fieldN w).toNat = w.toNat % 16 := by rw [fieldN, slice_toNat]; omega

theorem fieldNN_toNat (w : Word) : (fieldNN w).toNat = w.toNat % 256 := by rw [fieldNN, slice_toNat]; omega

theorem fieldNNN_toNat (w : Word) : (fieldNNN w).toNat = w.toNat % 4096 := by rw [fieldNNN, slice_toNat]; omega

/-! ### The fields of a word built from fields -/

@[simp] theorem fieldGroup_encNNN (g : BitVec 4) (nnn : BitVec 12) : fieldGroup (encNNN g nnn) = g :=
  BitVec.eq_of_toNat_eq (by have := nnn.isLt; rw [fieldGroup_toNat, encNNN_toNat]; omega)

@[simp] theorem fieldNNN_encNNN (g : BitVec 4) (nnn : BitVec 12) : fieldNNN (encNNN g nnn) = nnn :=
  BitVec.eq_of_toNat_eq (by have := nnn.isLt; rw [fieldNNN_toNat, encNNN_toNat]; omega)

@[simp] theorem fieldGroup_encXNN (g : BitVec 4) (x : Reg) (nn : Byte) : fieldGroup (encXNN g x nn) = g :=
  BitVec.eq_of_toNat_eq (by have := x.isLt; have := nn.isLt; rw [fieldGroup_toNat, encXNN_toNat]; omega)

@[simp] theorem fieldX_encXNN (g : BitVec 4) (x : Reg) (nn : Byte) : fieldX (encXNN g x nn) = x :=
  Fin.ext (by have := x.isLt; have := nn.isLt; rw [fieldX_val, encXNN_toNat]; omega)

@[simp] theorem fieldNN_encXNN (g : BitVec 4) (x : Reg) (nn : Byte) : fieldNN (encXNN g x nn) = nn :=
  BitVec.eq_of_toNat_eq (by have := x.isLt; have := nn.isLt; rw [fieldNN_toNat, encXNN_toNat]; omega)

@[simp] theorem fieldGroup_encXYN (g : BitVec 4) (x y : Reg) (n : BitVec 4) : fieldGroup (encXYN g x y n) = g :=
  BitVec.eq_of_toNat_eq (by have := x.isLt; have := y.isLt; have := n.isLt; rw [fieldGroup_toNat, encXYN_toNat]; omega)

@[simp] theorem fieldX_encXYN (g : BitVec 4) (x y : Reg) (n : BitVec 4) : fieldX (encXYN g x y n) = x :=
  Fin.ext (by have := x.isLt; have := y.isLt; have := n.isLt; rw [fieldX_val, encXYN_toNat]; omega)

@[simp] theorem fieldY_encXYN (g : BitVec 4) (x y : Reg) (n : BitVec 4) : fieldY (encXYN g x y n) = y :=
  Fin.ext (by have := x.isLt; have := y.isLt; have := n.isLt; rw [fieldY_val, encXYN_toNat]; omega)

@[simp] theorem fieldN_encXYN (g : BitVec 4) (x y : Reg) (n : BitVec 4) : fieldN (encXYN g x y n) = n :=
  BitVec.eq_of_toNat_eq (by have := x.isLt; have := y.isLt; have := n.isLt; rw [fieldN_toNat, encXYN_toNat]; omega)

/-! ### Every word is built from its fields -/

theorem encNNN_fields (w : Word) : encNNN (fieldGroup w) (fieldNNN w) = w :=
  BitVec.eq_of_toNat_eq (by rw [encNNN_toNat, fieldGroup_toNat, fieldNNN_toNat]; omega)

theorem encXNN_fields (w : Word) : encXNN (fieldGroup w) (fieldX w) (fieldNN w) = w :=
  BitVec.eq_of_toNat_eq (by rw [encXNN_toNat, fieldGroup_toNat, fieldX_val, fieldNN_toNat]; omega)

theorem encXYN_fields (w : Word) : encXYN (fieldGroup w) (fieldX w) (fieldY w) (fieldN w) = w :=
  BitVec.eq_of_toNat_eq (by rw [encXYN_toNat, fieldGroup_toNat, fieldX_val, fieldY_val, fieldN_toNat]; omega)

/-- The two bytes of an instruction make its word again (R80). -/
theorem wordOf_encodeBytes (i : Instr) : wordOf (encodeBytes i).1 (encodeBytes i).2 = encode i :=
  BitVec.eq_of_toNat_eq (by
    have := (encode i).isLt
    rw [wordOf_toNat, encodeBytes, slice_toNat, slice_toNat]; omega)

/-- The decoder rejects a word by its own name and in no other way (30_encoding.md R91). -/
theorem decodeWord_error {w : Word} {e : DecodeError} (h : decodeWord w = .error e) : e = .unknownOpcode w := by
  unfold decodeWord at h
  split at h <;> (try cases h)
  · unfold decodeGroup0 at h; split at h <;> try cases h
    split at h <;> cases h
  · unfold decodeGroup5 at h; split at h <;> cases h; rfl
  · unfold decodeGroup8 at h; split at h <;> cases h; rfl
  · unfold decodeGroup9 at h; split at h <;> cases h; rfl
  · unfold decodeGroupE at h; split at h <;> cases h; rfl
  · unfold decodeGroupF at h; split at h <;> cases h; rfl

end Sys2Proof
end

