-- ==== Sys2Proof/Laws/Memory.lean ====
section
/-! SUPPORT. The laws of the memory store: read after write, the canonical form is kept by every operation, and equal
contents are equal data. -/

namespace Sys2Proof.Machine.Memory

@[simp] theorem read_nil (a : Nat) : read [] a = unlisted a := rfl

@[simp] theorem read_cons (b : Nat) (u : Byte) (m : Memory) (a : Nat) :
    read ((b, u) :: m) a = if a = b then u else read m a := rfl

theorem wfFrom_cons {lo a : Nat} {x : Byte} {m : Memory} :
    wfFrom lo ((a, x) :: m) = true ↔ lo ≤ a ∧ a < Config.memSize ∧ x ≠ unlisted a ∧ wfFrom (a + 1) m = true := by
  simp [wfFrom, and_assoc]

theorem wfFrom_mono {lo lo' : Nat} {m : Memory} (h : wfFrom lo m = true) (hle : lo' ≤ lo) : wfFrom lo' m = true := by
  cases m with
  | nil => rfl
  | cons p m =>
    obtain ⟨h1, h2⟩ := wfFrom_cons.1 h
    exact wfFrom_cons.2 ⟨by omega, h2⟩

/-- An address below every listed one reads as unlisted. -/
theorem read_below {lo a : Nat} {m : Memory} (h : wfFrom lo m = true) (ha : a < lo) : read m a = unlisted a := by
  induction m generalizing lo with
  | nil => rfl
  | cons p m ih =>
    obtain ⟨h1, -, -, h4⟩ := wfFrom_cons.1 h
    rw [read_cons, if_neg (by omega), ih h4 (by omega)]

theorem read_write_of_wf {lo : Nat} {m : Memory} (h : wfFrom lo m = true) (a : Nat) (x : Byte) (c : Nat) :
    read (write m a x) c = if c = a then x else read m c := by
  induction m generalizing lo with
  | nil => by_cases hx : x = unlisted a <;> by_cases hc : c = a <;> simp_all [write]
  | cons p m ih =>
    obtain ⟨b, u⟩ := p
    obtain ⟨h1, h2, h3, h4⟩ := wfFrom_cons.1 h
    simp only [write]
    rcases Nat.lt_trichotomy a b with hab | rfl | hab
    · have hb : read m a = unlisted a := read_below h4 (by omega)
      by_cases hx : x = unlisted a <;> by_cases hc : c = a <;> simp_all [show a ≠ b by omega]
    · have hb : read m a = unlisted a := read_below h4 (by omega)
      by_cases hx : x = unlisted a <;> by_cases hc : c = a <;> simp_all
    · rw [if_neg (by omega), if_neg (by omega), read_cons, read_cons, ih h4]
      by_cases hc : c = a <;> by_cases hcb : c = b <;> simp_all

theorem wfFrom_write {lo : Nat} {m : Memory} (h : wfFrom lo m = true) {a : Nat} (x : Byte) (hlo : lo ≤ a)
    (ha : a < Config.memSize) : wfFrom lo (write m a x) = true := by
  induction m generalizing lo with
  | nil =>
    simp only [write]
    split
    · rfl
    · rename_i hx; exact wfFrom_cons.2 ⟨hlo, ha, hx, rfl⟩
  | cons p m ih =>
    obtain ⟨b, u⟩ := p
    obtain ⟨h1, h2, h3, h4⟩ := wfFrom_cons.1 h
    simp only [write]
    split
    · split
      · exact h
      · rename_i hab hx; exact wfFrom_cons.2 ⟨hlo, ha, hx, wfFrom_cons.2 ⟨by omega, h2, h3, h4⟩⟩
    · split
      · rename_i hab; subst hab
        split
        · exact wfFrom_mono h4 (by omega)
        · rename_i hx; exact wfFrom_cons.2 ⟨hlo, ha, hx, h4⟩
      · exact wfFrom_cons.2 ⟨h1, h2, h3, ih h4 (by omega)⟩

theorem wf_nil : wf [] = true := rfl

/-- Read after write. -/
theorem read_write {m : Memory} (h : wf m = true) (a : Nat) (x : Byte) (c : Nat) :
    read (write m a x) c = if c = a then x else read m c := read_write_of_wf h a x c

/-- A write inside memory keeps the canonical form. -/
theorem wf_write {m : Memory} (h : wf m = true) {a : Nat} (x : Byte) (ha : a < Config.memSize) :
    wf (write m a x) = true := wfFrom_write h x (Nat.zero_le a) ha

@[simp] theorem writeList_nil (m : Memory) (a : Nat) : writeList m a [] = m := by cases m <;> rfl

@[simp] theorem writeList_cons (m : Memory) (a : Nat) (x : Byte) (xs : List Byte) :
    writeList m a (x :: xs) = writeList (write m a x) (a + 1) xs := by cases m <;> rfl

/-- Writing bytes inside memory keeps the canonical form. -/
theorem wf_writeList {m : Memory} (h : wf m = true) {a : Nat} {xs : List Byte} (ha : a + xs.length ≤ Config.memSize) :
    wf (writeList m a xs) = true := by
  induction xs generalizing m a with
  | nil => simpa using h
  | cons x xs ih =>
    rw [List.length_cons] at ha
    rw [writeList_cons]
    exact ih (wf_write h x (by omega)) (by omega)

/-- Every byte after writing a list: the written one inside the block, the old one outside. -/
theorem read_writeList {m : Memory} (h : wf m = true) {a : Nat} {xs : List Byte} (ha : a + xs.length ≤ Config.memSize)
    (c : Nat) :
    read (writeList m a xs) c = if a ≤ c ∧ c < a + xs.length then xs.getD (c - a) 0#8 else read m c := by
  induction xs generalizing m a with
  | nil => rw [writeList_nil, if_neg (by simp)]
  | cons x xs ih =>
    rw [List.length_cons] at ha
    rw [writeList_cons, ih (wf_write h x (by omega)) (by omega), read_write h]
    rcases Nat.lt_trichotomy c a with hc | rfl | hc
    · rw [if_neg (by omega), if_neg (by omega), if_neg (by simp; omega)]
    · simp
    · obtain ⟨k, rfl⟩ : ∃ k, c = a + 1 + k := ⟨c - a - 1, by omega⟩
      simp [show a + 1 + k ≠ a by omega, show a + 1 + k - a = k + 1 by omega, show a ≤ a + 1 + k by omega]
      congr 1
      simp; omega

@[simp] theorem readList_length (m : Memory) (a n : Nat) : (readList m a n).length = n := by simp [readList]

theorem readList_getD (m : Memory) (a : Nat) {n k : Nat} (h : k < n) : (readList m a n).getD k 0#8 = read m (a + k) := by
  simp [readList, h]

/-- The canonical form is canonical: equal contents are equal data. -/
theorem eq_of_read_eq {lo : Nat} {m m' : Memory} (h : wfFrom lo m = true) (h' : wfFrom lo m' = true)
    (heq : ∀ a, read m a = read m' a) : m = m' := by
  induction m generalizing lo m' with
  | nil =>
    cases m' with
    | nil => rfl
    | cons p m' =>
      obtain ⟨-, -, h3, -⟩ := wfFrom_cons.1 h'
      exact absurd (by simpa [read] using heq p.1) h3.symm
  | cons p m ih =>
    obtain ⟨b, u⟩ := p
    obtain ⟨h1, h2, h3, h4⟩ := wfFrom_cons.1 h
    cases m' with
    | nil => have := heq b; simp_all
    | cons q m' =>
      obtain ⟨c, w⟩ := q
      obtain ⟨k1, k2, k3, k4⟩ := wfFrom_cons.1 h'
      have hb := heq b
      have hc := heq c
      have hbc : b = c := by
        rcases Nat.lt_trichotomy b c with hlt | e | hlt
        · have : read m' b = unlisted b := read_below k4 (by omega)
          simp_all [show b ≠ c by omega]
        · exact e
        · have : read m c = unlisted c := read_below h4 (by omega)
          simp_all [show c ≠ b by omega]
      subst hbc
      have hu : u = w := by simpa using hb
      subst hu
      congr 1
      refine ih h4 k4 fun a => ?_
      have ha := heq a
      by_cases hab : a = b
      · subst hab; rw [read_below h4 (by omega), read_below k4 (by omega)]
      · simpa [hab] using ha

end Sys2Proof.Machine.Memory
end

