-- ==== Sys2Proof/Laws/State.lean ====
section
/-! SUPPORT. For each update of the state, what every field holds after it: one lemma a field, each true by definition, so
that no later proof unfolds an update. -/

namespace Sys2Proof.Machine

variable (s : State)

/-! ### State.setReg -/

@[simp] theorem setReg_v (r : Reg) (b : Byte) : (s.setReg r b).v = s.v.set r.val b := rfl
@[simp] theorem setReg_i (r : Reg) (b : Byte) : (s.setReg r b).i = s.i := rfl
@[simp] theorem setReg_pc (r : Reg) (b : Byte) : (s.setReg r b).pc = s.pc := rfl
@[simp] theorem setReg_sp (r : Reg) (b : Byte) : (s.setReg r b).sp = s.sp := rfl
@[simp] theorem setReg_stack (r : Reg) (b : Byte) : (s.setReg r b).stack = s.stack := rfl
@[simp] theorem setReg_dt (r : Reg) (b : Byte) : (s.setReg r b).dt = s.dt := rfl
@[simp] theorem setReg_st (r : Reg) (b : Byte) : (s.setReg r b).st = s.st := rfl
@[simp] theorem setReg_display (r : Reg) (b : Byte) : (s.setReg r b).display = s.display := rfl
@[simp] theorem setReg_keypad (r : Reg) (b : Byte) : (s.setReg r b).keypad = s.keypad := rfl
@[simp] theorem setReg_latch (r : Reg) (b : Byte) : (s.setReg r b).latch = s.latch := rfl
@[simp] theorem setReg_mem (r : Reg) (b : Byte) : (s.setReg r b).mem = s.mem := rfl
@[simp] theorem setReg_redraw (r : Reg) (b : Byte) : (s.setReg r b).redraw = s.redraw := rfl
@[simp] theorem setReg_instr (r : Reg) (b : Byte) : (s.setReg r b).instr = s.instr := rfl
@[simp] theorem setReg_shown (r : Reg) (b : Byte) : (s.setReg r b).shown = s.shown := rfl
@[simp] theorem setReg_inbox (r : Reg) (b : Byte) : (s.setReg r b).inbox = s.inbox := rfl
@[simp] theorem setReg_rnd (r : Reg) (b : Byte) : (s.setReg r b).rnd = s.rnd := rfl
@[simp] theorem setReg_draws (r : Reg) (b : Byte) : (s.setReg r b).draws = s.draws := rfl
@[simp] theorem setReg_phase (r : Reg) (b : Byte) : (s.setReg r b).phase = s.phase := rfl

/-! ### State.setI -/

@[simp] theorem setI_v (a : Word) : (s.setI a).v = s.v := rfl
@[simp] theorem setI_i (a : Word) : (s.setI a).i = a := rfl
@[simp] theorem setI_pc (a : Word) : (s.setI a).pc = s.pc := rfl
@[simp] theorem setI_sp (a : Word) : (s.setI a).sp = s.sp := rfl
@[simp] theorem setI_stack (a : Word) : (s.setI a).stack = s.stack := rfl
@[simp] theorem setI_dt (a : Word) : (s.setI a).dt = s.dt := rfl
@[simp] theorem setI_st (a : Word) : (s.setI a).st = s.st := rfl
@[simp] theorem setI_display (a : Word) : (s.setI a).display = s.display := rfl
@[simp] theorem setI_keypad (a : Word) : (s.setI a).keypad = s.keypad := rfl
@[simp] theorem setI_latch (a : Word) : (s.setI a).latch = s.latch := rfl
@[simp] theorem setI_mem (a : Word) : (s.setI a).mem = s.mem := rfl
@[simp] theorem setI_redraw (a : Word) : (s.setI a).redraw = s.redraw := rfl
@[simp] theorem setI_instr (a : Word) : (s.setI a).instr = s.instr := rfl
@[simp] theorem setI_shown (a : Word) : (s.setI a).shown = s.shown := rfl
@[simp] theorem setI_inbox (a : Word) : (s.setI a).inbox = s.inbox := rfl
@[simp] theorem setI_rnd (a : Word) : (s.setI a).rnd = s.rnd := rfl
@[simp] theorem setI_draws (a : Word) : (s.setI a).draws = s.draws := rfl
@[simp] theorem setI_phase (a : Word) : (s.setI a).phase = s.phase := rfl

/-! ### State.advanceI -/

@[simp] theorem advanceI_v (x : Reg) : (s.advanceI x).v = s.v := rfl
@[simp] theorem advanceI_i (x : Reg) : (s.advanceI x).i = s.i + BitVec.ofNat 16 (x.val + 1) := rfl
@[simp] theorem advanceI_pc (x : Reg) : (s.advanceI x).pc = s.pc := rfl
@[simp] theorem advanceI_sp (x : Reg) : (s.advanceI x).sp = s.sp := rfl
@[simp] theorem advanceI_stack (x : Reg) : (s.advanceI x).stack = s.stack := rfl
@[simp] theorem advanceI_dt (x : Reg) : (s.advanceI x).dt = s.dt := rfl
@[simp] theorem advanceI_st (x : Reg) : (s.advanceI x).st = s.st := rfl
@[simp] theorem advanceI_display (x : Reg) : (s.advanceI x).display = s.display := rfl
@[simp] theorem advanceI_keypad (x : Reg) : (s.advanceI x).keypad = s.keypad := rfl
@[simp] theorem advanceI_latch (x : Reg) : (s.advanceI x).latch = s.latch := rfl
@[simp] theorem advanceI_mem (x : Reg) : (s.advanceI x).mem = s.mem := rfl
@[simp] theorem advanceI_redraw (x : Reg) : (s.advanceI x).redraw = s.redraw := rfl
@[simp] theorem advanceI_instr (x : Reg) : (s.advanceI x).instr = s.instr := rfl
@[simp] theorem advanceI_shown (x : Reg) : (s.advanceI x).shown = s.shown := rfl
@[simp] theorem advanceI_inbox (x : Reg) : (s.advanceI x).inbox = s.inbox := rfl
@[simp] theorem advanceI_rnd (x : Reg) : (s.advanceI x).rnd = s.rnd := rfl
@[simp] theorem advanceI_draws (x : Reg) : (s.advanceI x).draws = s.draws := rfl
@[simp] theorem advanceI_phase (x : Reg) : (s.advanceI x).phase = s.phase := rfl

/-! ### withRnd -/

@[simp] theorem withRnd_v (r : Byte) : (withRnd r s).v = s.v := rfl
@[simp] theorem withRnd_i (r : Byte) : (withRnd r s).i = s.i := rfl
@[simp] theorem withRnd_pc (r : Byte) : (withRnd r s).pc = s.pc := rfl
@[simp] theorem withRnd_sp (r : Byte) : (withRnd r s).sp = s.sp := rfl
@[simp] theorem withRnd_stack (r : Byte) : (withRnd r s).stack = s.stack := rfl
@[simp] theorem withRnd_dt (r : Byte) : (withRnd r s).dt = s.dt := rfl
@[simp] theorem withRnd_st (r : Byte) : (withRnd r s).st = s.st := rfl
@[simp] theorem withRnd_display (r : Byte) : (withRnd r s).display = s.display := rfl
@[simp] theorem withRnd_keypad (r : Byte) : (withRnd r s).keypad = s.keypad := rfl
@[simp] theorem withRnd_latch (r : Byte) : (withRnd r s).latch = s.latch := rfl
@[simp] theorem withRnd_mem (r : Byte) : (withRnd r s).mem = s.mem := rfl
@[simp] theorem withRnd_redraw (r : Byte) : (withRnd r s).redraw = s.redraw := rfl
@[simp] theorem withRnd_instr (r : Byte) : (withRnd r s).instr = s.instr := rfl
@[simp] theorem withRnd_shown (r : Byte) : (withRnd r s).shown = s.shown := rfl
@[simp] theorem withRnd_inbox (r : Byte) : (withRnd r s).inbox = s.inbox := rfl
@[simp] theorem withRnd_rnd (r : Byte) : (withRnd r s).rnd = r := rfl
@[simp] theorem withRnd_draws (r : Byte) : (withRnd r s).draws = s.draws := rfl
@[simp] theorem withRnd_phase (r : Byte) : (withRnd r s).phase = s.phase := rfl

/-! ### withInbox -/

@[simp] theorem withInbox_v (l : List Transaction) : (withInbox l s).v = s.v := rfl
@[simp] theorem withInbox_i (l : List Transaction) : (withInbox l s).i = s.i := rfl
@[simp] theorem withInbox_pc (l : List Transaction) : (withInbox l s).pc = s.pc := rfl
@[simp] theorem withInbox_sp (l : List Transaction) : (withInbox l s).sp = s.sp := rfl
@[simp] theorem withInbox_stack (l : List Transaction) : (withInbox l s).stack = s.stack := rfl
@[simp] theorem withInbox_dt (l : List Transaction) : (withInbox l s).dt = s.dt := rfl
@[simp] theorem withInbox_st (l : List Transaction) : (withInbox l s).st = s.st := rfl
@[simp] theorem withInbox_display (l : List Transaction) : (withInbox l s).display = s.display := rfl
@[simp] theorem withInbox_keypad (l : List Transaction) : (withInbox l s).keypad = s.keypad := rfl
@[simp] theorem withInbox_latch (l : List Transaction) : (withInbox l s).latch = s.latch := rfl
@[simp] theorem withInbox_mem (l : List Transaction) : (withInbox l s).mem = s.mem := rfl
@[simp] theorem withInbox_redraw (l : List Transaction) : (withInbox l s).redraw = s.redraw := rfl
@[simp] theorem withInbox_instr (l : List Transaction) : (withInbox l s).instr = s.instr := rfl
@[simp] theorem withInbox_shown (l : List Transaction) : (withInbox l s).shown = s.shown := rfl
@[simp] theorem withInbox_inbox (l : List Transaction) : (withInbox l s).inbox = l := rfl
@[simp] theorem withInbox_rnd (l : List Transaction) : (withInbox l s).rnd = s.rnd := rfl
@[simp] theorem withInbox_draws (l : List Transaction) : (withInbox l s).draws = s.draws := rfl
@[simp] theorem withInbox_phase (l : List Transaction) : (withInbox l s).phase = s.phase := rfl

/-! ### countDraw -/

@[simp] theorem countDraw_v : (countDraw s).v = s.v := rfl
@[simp] theorem countDraw_i : (countDraw s).i = s.i := rfl
@[simp] theorem countDraw_pc : (countDraw s).pc = s.pc := rfl
@[simp] theorem countDraw_sp : (countDraw s).sp = s.sp := rfl
@[simp] theorem countDraw_stack : (countDraw s).stack = s.stack := rfl
@[simp] theorem countDraw_dt : (countDraw s).dt = s.dt := rfl
@[simp] theorem countDraw_st : (countDraw s).st = s.st := rfl
@[simp] theorem countDraw_display : (countDraw s).display = s.display := rfl
@[simp] theorem countDraw_keypad : (countDraw s).keypad = s.keypad := rfl
@[simp] theorem countDraw_latch : (countDraw s).latch = s.latch := rfl
@[simp] theorem countDraw_mem : (countDraw s).mem = s.mem := rfl
@[simp] theorem countDraw_redraw : (countDraw s).redraw = s.redraw := rfl
@[simp] theorem countDraw_instr : (countDraw s).instr = s.instr := rfl
@[simp] theorem countDraw_shown : (countDraw s).shown = s.shown := rfl
@[simp] theorem countDraw_inbox : (countDraw s).inbox = s.inbox := rfl
@[simp] theorem countDraw_rnd : (countDraw s).rnd = s.rnd := rfl
@[simp] theorem countDraw_draws : (countDraw s).draws = s.draws + 1 := rfl
@[simp] theorem countDraw_phase : (countDraw s).phase = s.phase := rfl

/-! ### recordStep -/

@[simp] theorem recordStep_v (b1 b2 : Byte) (op : Instr) : (recordStep b1 b2 op s).v = s.v := rfl
@[simp] theorem recordStep_i (b1 b2 : Byte) (op : Instr) : (recordStep b1 b2 op s).i = s.i := rfl
@[simp] theorem recordStep_pc (b1 b2 : Byte) (op : Instr) : (recordStep b1 b2 op s).pc = s.pc := rfl
@[simp] theorem recordStep_sp (b1 b2 : Byte) (op : Instr) : (recordStep b1 b2 op s).sp = s.sp := rfl
@[simp] theorem recordStep_stack (b1 b2 : Byte) (op : Instr) : (recordStep b1 b2 op s).stack = s.stack := rfl
@[simp] theorem recordStep_dt (b1 b2 : Byte) (op : Instr) : (recordStep b1 b2 op s).dt = s.dt := rfl
@[simp] theorem recordStep_st (b1 b2 : Byte) (op : Instr) : (recordStep b1 b2 op s).st = s.st := rfl
@[simp] theorem recordStep_display (b1 b2 : Byte) (op : Instr) : (recordStep b1 b2 op s).display = s.display := rfl
@[simp] theorem recordStep_keypad (b1 b2 : Byte) (op : Instr) : (recordStep b1 b2 op s).keypad = s.keypad := rfl
@[simp] theorem recordStep_latch (b1 b2 : Byte) (op : Instr) : (recordStep b1 b2 op s).latch = s.latch := rfl
@[simp] theorem recordStep_mem (b1 b2 : Byte) (op : Instr) : (recordStep b1 b2 op s).mem = s.mem := rfl
@[simp] theorem recordStep_redraw (b1 b2 : Byte) (op : Instr) : (recordStep b1 b2 op s).redraw = s.redraw := rfl
@[simp] theorem recordStep_instr (b1 b2 : Byte) (op : Instr) : (recordStep b1 b2 op s).instr = some ⟨b1, b2, op⟩ := rfl
@[simp] theorem recordStep_shown (b1 b2 : Byte) (op : Instr) : (recordStep b1 b2 op s).shown = s.shown := rfl
@[simp] theorem recordStep_inbox (b1 b2 : Byte) (op : Instr) : (recordStep b1 b2 op s).inbox = s.inbox := rfl
@[simp] theorem recordStep_rnd (b1 b2 : Byte) (op : Instr) : (recordStep b1 b2 op s).rnd = s.rnd := rfl
@[simp] theorem recordStep_draws (b1 b2 : Byte) (op : Instr) : (recordStep b1 b2 op s).draws = s.draws := rfl
@[simp] theorem recordStep_phase (b1 b2 : Byte) (op : Instr) : (recordStep b1 b2 op s).phase = .running := rfl

/-! ### tick -/

@[simp] theorem tick_v : (tick s).v = s.v := rfl
@[simp] theorem tick_i : (tick s).i = s.i := rfl
@[simp] theorem tick_pc : (tick s).pc = s.pc := rfl
@[simp] theorem tick_sp : (tick s).sp = s.sp := rfl
@[simp] theorem tick_stack : (tick s).stack = s.stack := rfl
@[simp] theorem tick_dt : (tick s).dt = countDown s.dt := rfl
@[simp] theorem tick_st : (tick s).st = countDown s.st := rfl
@[simp] theorem tick_display : (tick s).display = s.display := rfl
@[simp] theorem tick_keypad : (tick s).keypad = s.keypad := rfl
@[simp] theorem tick_latch : (tick s).latch = s.latch := rfl
@[simp] theorem tick_mem : (tick s).mem = s.mem := rfl
@[simp] theorem tick_redraw : (tick s).redraw = s.redraw := rfl
@[simp] theorem tick_instr : (tick s).instr = s.instr := rfl
@[simp] theorem tick_shown : (tick s).shown = s.shown := rfl
@[simp] theorem tick_inbox : (tick s).inbox = s.inbox := rfl
@[simp] theorem tick_rnd : (tick s).rnd = s.rnd := rfl
@[simp] theorem tick_draws : (tick s).draws = s.draws := rfl
@[simp] theorem tick_phase : (tick s).phase = s.phase := rfl

/-! ### keyDown -/

@[simp] theorem keyDown_v (k : Key) : (keyDown k s).v = s.v := rfl
@[simp] theorem keyDown_i (k : Key) : (keyDown k s).i = s.i := rfl
@[simp] theorem keyDown_pc (k : Key) : (keyDown k s).pc = s.pc := rfl
@[simp] theorem keyDown_sp (k : Key) : (keyDown k s).sp = s.sp := rfl
@[simp] theorem keyDown_stack (k : Key) : (keyDown k s).stack = s.stack := rfl
@[simp] theorem keyDown_dt (k : Key) : (keyDown k s).dt = s.dt := rfl
@[simp] theorem keyDown_st (k : Key) : (keyDown k s).st = s.st := rfl
@[simp] theorem keyDown_display (k : Key) : (keyDown k s).display = s.display := rfl
@[simp] theorem keyDown_keypad (k : Key) : (keyDown k s).keypad = s.keypad ||| keyMask k := rfl
@[simp] theorem keyDown_latch (k : Key) : (keyDown k s).latch = s.latch := rfl
@[simp] theorem keyDown_mem (k : Key) : (keyDown k s).mem = s.mem := rfl
@[simp] theorem keyDown_redraw (k : Key) : (keyDown k s).redraw = s.redraw := rfl
@[simp] theorem keyDown_instr (k : Key) : (keyDown k s).instr = s.instr := rfl
@[simp] theorem keyDown_shown (k : Key) : (keyDown k s).shown = s.shown := rfl
@[simp] theorem keyDown_inbox (k : Key) : (keyDown k s).inbox = s.inbox := rfl
@[simp] theorem keyDown_rnd (k : Key) : (keyDown k s).rnd = s.rnd := rfl
@[simp] theorem keyDown_draws (k : Key) : (keyDown k s).draws = s.draws := rfl
@[simp] theorem keyDown_phase (k : Key) : (keyDown k s).phase = s.phase := rfl

/-! ### keyUp -/

@[simp] theorem keyUp_v (k : Key) : (keyUp k s).v = s.v := rfl
@[simp] theorem keyUp_i (k : Key) : (keyUp k s).i = s.i := rfl
@[simp] theorem keyUp_pc (k : Key) : (keyUp k s).pc = s.pc := rfl
@[simp] theorem keyUp_sp (k : Key) : (keyUp k s).sp = s.sp := rfl
@[simp] theorem keyUp_stack (k : Key) : (keyUp k s).stack = s.stack := rfl
@[simp] theorem keyUp_dt (k : Key) : (keyUp k s).dt = s.dt := rfl
@[simp] theorem keyUp_st (k : Key) : (keyUp k s).st = s.st := rfl
@[simp] theorem keyUp_display (k : Key) : (keyUp k s).display = s.display := rfl
@[simp] theorem keyUp_keypad (k : Key) : (keyUp k s).keypad = s.keypad &&& ~~~(keyMask k) := rfl
@[simp] theorem keyUp_latch (k : Key) : (keyUp k s).latch = latchOnRelease k (s.isPressed k) s.latch := rfl
@[simp] theorem keyUp_mem (k : Key) : (keyUp k s).mem = s.mem := rfl
@[simp] theorem keyUp_redraw (k : Key) : (keyUp k s).redraw = s.redraw := rfl
@[simp] theorem keyUp_instr (k : Key) : (keyUp k s).instr = s.instr := rfl
@[simp] theorem keyUp_shown (k : Key) : (keyUp k s).shown = s.shown := rfl
@[simp] theorem keyUp_inbox (k : Key) : (keyUp k s).inbox = s.inbox := rfl
@[simp] theorem keyUp_rnd (k : Key) : (keyUp k s).rnd = s.rnd := rfl
@[simp] theorem keyUp_draws (k : Key) : (keyUp k s).draws = s.draws := rfl
@[simp] theorem keyUp_phase (k : Key) : (keyUp k s).phase = s.phase := rfl

/-! ### displayRead -/

@[simp] theorem displayRead_v : (displayRead s).v = s.v := rfl
@[simp] theorem displayRead_i : (displayRead s).i = s.i := rfl
@[simp] theorem displayRead_pc : (displayRead s).pc = s.pc := rfl
@[simp] theorem displayRead_sp : (displayRead s).sp = s.sp := rfl
@[simp] theorem displayRead_stack : (displayRead s).stack = s.stack := rfl
@[simp] theorem displayRead_dt : (displayRead s).dt = s.dt := rfl
@[simp] theorem displayRead_st : (displayRead s).st = s.st := rfl
@[simp] theorem displayRead_display : (displayRead s).display = s.display := rfl
@[simp] theorem displayRead_keypad : (displayRead s).keypad = s.keypad := rfl
@[simp] theorem displayRead_latch : (displayRead s).latch = s.latch := rfl
@[simp] theorem displayRead_mem : (displayRead s).mem = s.mem := rfl
@[simp] theorem displayRead_redraw : (displayRead s).redraw = s.redraw := rfl
@[simp] theorem displayRead_instr : (displayRead s).instr = s.instr := rfl
@[simp] theorem displayRead_shown : (displayRead s).shown = some s.display := rfl
@[simp] theorem displayRead_inbox : (displayRead s).inbox = s.inbox := rfl
@[simp] theorem displayRead_rnd : (displayRead s).rnd = s.rnd := rfl
@[simp] theorem displayRead_draws : (displayRead s).draws = s.draws := rfl
@[simp] theorem displayRead_phase : (displayRead s).phase = s.phase := rfl

/-! ### State.writeAlu -/

@[simp] theorem writeAlu_i (x : Reg) (r : Byte × Byte) : (s.writeAlu x r).i = s.i := rfl
@[simp] theorem writeAlu_pc (x : Reg) (r : Byte × Byte) : (s.writeAlu x r).pc = s.pc := rfl
@[simp] theorem writeAlu_sp (x : Reg) (r : Byte × Byte) : (s.writeAlu x r).sp = s.sp := rfl
@[simp] theorem writeAlu_stack (x : Reg) (r : Byte × Byte) : (s.writeAlu x r).stack = s.stack := rfl
@[simp] theorem writeAlu_dt (x : Reg) (r : Byte × Byte) : (s.writeAlu x r).dt = s.dt := rfl
@[simp] theorem writeAlu_st (x : Reg) (r : Byte × Byte) : (s.writeAlu x r).st = s.st := rfl
@[simp] theorem writeAlu_display (x : Reg) (r : Byte × Byte) : (s.writeAlu x r).display = s.display := rfl
@[simp] theorem writeAlu_keypad (x : Reg) (r : Byte × Byte) : (s.writeAlu x r).keypad = s.keypad := rfl
@[simp] theorem writeAlu_latch (x : Reg) (r : Byte × Byte) : (s.writeAlu x r).latch = s.latch := rfl
@[simp] theorem writeAlu_mem (x : Reg) (r : Byte × Byte) : (s.writeAlu x r).mem = s.mem := rfl
@[simp] theorem writeAlu_redraw (x : Reg) (r : Byte × Byte) : (s.writeAlu x r).redraw = s.redraw := rfl
@[simp] theorem writeAlu_instr (x : Reg) (r : Byte × Byte) : (s.writeAlu x r).instr = s.instr := rfl
@[simp] theorem writeAlu_shown (x : Reg) (r : Byte × Byte) : (s.writeAlu x r).shown = s.shown := rfl
@[simp] theorem writeAlu_inbox (x : Reg) (r : Byte × Byte) : (s.writeAlu x r).inbox = s.inbox := rfl
@[simp] theorem writeAlu_rnd (x : Reg) (r : Byte × Byte) : (s.writeAlu x r).rnd = s.rnd := rfl
@[simp] theorem writeAlu_draws (x : Reg) (r : Byte × Byte) : (s.writeAlu x r).draws = s.draws := rfl
@[simp] theorem writeAlu_phase (x : Reg) (r : Byte × Byte) : (s.writeAlu x r).phase = s.phase := rfl

/-! ### resetMachine -/

@[simp] theorem resetMachine_v : (resetMachine s).v = State.reset.v := rfl
@[simp] theorem resetMachine_i : (resetMachine s).i = State.reset.i := rfl
@[simp] theorem resetMachine_pc : (resetMachine s).pc = State.reset.pc := rfl
@[simp] theorem resetMachine_sp : (resetMachine s).sp = State.reset.sp := rfl
@[simp] theorem resetMachine_stack : (resetMachine s).stack = State.reset.stack := rfl
@[simp] theorem resetMachine_dt : (resetMachine s).dt = State.reset.dt := rfl
@[simp] theorem resetMachine_st : (resetMachine s).st = State.reset.st := rfl
@[simp] theorem resetMachine_display : (resetMachine s).display = State.reset.display := rfl
@[simp] theorem resetMachine_keypad : (resetMachine s).keypad = State.reset.keypad := rfl
@[simp] theorem resetMachine_latch : (resetMachine s).latch = State.reset.latch := rfl
@[simp] theorem resetMachine_mem : (resetMachine s).mem = State.reset.mem := rfl
@[simp] theorem resetMachine_redraw : (resetMachine s).redraw = State.reset.redraw := rfl
@[simp] theorem resetMachine_instr : (resetMachine s).instr = State.reset.instr := rfl
@[simp] theorem resetMachine_shown : (resetMachine s).shown = State.reset.shown := rfl
@[simp] theorem resetMachine_inbox : (resetMachine s).inbox = s.inbox := rfl
@[simp] theorem resetMachine_rnd : (resetMachine s).rnd = State.reset.rnd := rfl
@[simp] theorem resetMachine_draws : (resetMachine s).draws = s.draws := rfl
@[simp] theorem resetMachine_phase : (resetMachine s).phase = State.reset.phase := rfl

end Sys2Proof.Machine
end

