-- ==== Sys2Proof/Laws/Ops.lean ====
section
/-! SUPPORT. One lemma for each shared operation saying once everything it can do: outcomes, registers, checked memory
accesses, the fetch, the call stack, and a whole STEP. -/

namespace Sys2Proof.Machine

/-! ### Outcomes -/

@[simp] theorem raise_eq (f : Fault) : raise f = .fault f := rfl

@[simp] theorem orRaise_ok {α : Type} (a : α) (k : α → Result) : orRaise (.ok a) k = k a := rfl

@[simp] theorem orRaise_error {α : Type} (f : Fault) (k : α → Result) : orRaise (.error f) k = .fault f := rfl

/-- A checked operation that goes on to a next state succeeded. -/
theorem orRaise_eq_next {α : Type} {e : Except Fault α} {k : α → Result} {t : State} :
    orRaise e k = .next t ↔ ∃ a, e = .ok a ∧ k a = .next t := by
  cases e <;> simp

/-- A checked operation faults with its own condition, or in what follows it. -/
theorem orRaise_eq_fault {α : Type} {e : Except Fault α} {k : α → Result} {f : Fault} :
    orRaise e k = .fault f ↔ e = .error f ∨ ∃ a, e = .ok a ∧ k a = .fault f := by
  cases e <;> simp

theorem orRaise_eq_refused {α : Type} {e : Except Fault α} {k : α → Result} {r : Refusal} :
    orRaise e k = .refused r ↔ ∃ a, e = .ok a ∧ k a = .refused r := by
  cases e <;> simp

@[simp] theorem mapNext_eq_next {f : State → State} {o : Result} {t : State} :
    mapNext f o = .next t ↔ ∃ u, o = .next u ∧ f u = t := by
  cases o <;> simp [mapNext]

@[simp] theorem mapNext_eq_fault {f : State → State} {o : Result} {e : Fault} : mapNext f o = .fault e ↔ o = .fault e := by
  cases o <;> simp [mapNext]

@[simp] theorem mapNext_eq_refused {f : State → State} {o : Result} {r : Refusal} :
    mapNext f o = .refused r ↔ o = .refused r := by
  cases o <;> simp [mapNext]

@[simp] theorem finish_eq (s : State) (p : Word) : s.finish p = .next { s with pc := p, redraw := false } := rfl

@[simp] theorem advance_eq (s : State) : s.advance = .next { s with pc := s.pc + 2#16, redraw := false } := rfl

@[simp] theorem skipIf_eq (s : State) (c : Bool) :
    s.skipIf c = .next { s with pc := if c then s.pc + 4#16 else s.pc + 2#16, redraw := false } := rfl

@[simp] theorem advanceRedraw_eq (s : State) : s.advanceRedraw = .next { s with pc := s.pc + 2#16, redraw := true } := rfl

/-! ### General registers -/

/-- Reading a register of a state built from another's fields. -/
theorem reg_eq (s : State) (q : Reg) : s.reg q = s.v[q.val] := rfl

@[simp] theorem reg_setReg (s : State) (r : Reg) (b : Byte) (q : Reg) :
    (s.setReg r b).reg q = if q = r then b else s.reg q := by
  simp only [State.reg, setReg_v, Vector.getElem_set, Fin.ext_iff, eq_comm]

/-- The flag wins over the result when X is F (10_state.md R22). -/
@[simp] theorem reg_writeAlu (s : State) (x : Reg) (r : Byte × Byte) (q : Reg) :
    (s.writeAlu x r).reg q = if q = VF then r.2 else if q = x then r.1 else s.reg q := by
  simp only [State.writeAlu, reg_setReg]

/-- Two states with the same registers read alike. -/
theorem reg_congr {s t : State} (h : t.v = s.v) (q : Reg) : t.reg q = s.reg q := by simp only [State.reg, h]

theorem v_ext {s t : State} (h : ∀ q : Reg, t.reg q = s.reg q) : t.v = s.v := by
  refine Vector.ext fun k hk => ?_
  exact h ⟨k, hk⟩

@[simp] theorem setRegs_nil (s : State) (k : Nat) : s.setRegs k [] = s := rfl

/-- A block load writes registers and nothing else. -/
theorem setRegs_eq (s : State) (k : Nat) (bs : List Byte) : s.setRegs k bs = { s with v := (s.setRegs k bs).v } := by
  induction bs generalizing s k with
  | nil => rfl
  | cons b bs ih =>
    simp only [State.setRegs]
    split
    · rw [ih]; rfl
    · rw [ih]

/-- A block load: register `k + j` receives byte `j`, the others keep their value. -/
theorem reg_setRegs (s : State) (k : Nat) (bs : List Byte) (q : Reg) :
    (s.setRegs k bs).reg q = if k ≤ q.val ∧ q.val < k + bs.length then bs.getD (q.val - k) 0#8 else s.reg q := by
  induction bs generalizing s k with
  | nil => rw [setRegs_nil, if_neg (by simp)]
  | cons b bs ih =>
    simp only [State.setRegs, ih, List.length_cons]
    have hq := q.isLt
    rcases Nat.lt_trichotomy q.val k with h | h | h
    · rw [if_neg (by omega), if_neg (by omega)]
      split
      · rw [reg_setReg, if_neg (by simp [Fin.ext_iff]; omega)]
      · rfl
    · subst h
      rw [if_neg (by omega), if_pos (by omega), dif_pos hq, reg_setReg, if_pos rfl]
      simp
    · obtain ⟨j, hj⟩ : ∃ j, q.val = k + 1 + j := ⟨q.val - k - 1, by omega⟩
      by_cases hin : q.val < k + (bs.length + 1)
      · rw [if_pos (by omega), if_pos (by omega), hj, show k + 1 + j - k = j + 1 by omega]
        simp
      · rw [if_neg (by omega), if_neg (by omega)]
        split
        · rw [reg_setReg, if_neg (by simp [Fin.ext_iff]; omega)]
        · rfl

@[simp] theorem regsUpTo_length (s : State) (x : Reg) : (s.regsUpTo x).length = x.val + 1 := by
  have := x.isLt
  simp [State.regsUpTo]

/-- Byte `k` of the block FX55 stores is V[k]. -/
theorem regsUpTo_getD (s : State) (x : Reg) {k : Nat} (h : k ≤ x.val) :
    (s.regsUpTo x).getD k 0#8 = s.reg ⟨k, by omega⟩ := by
  have := x.isLt
  simp [State.regsUpTo, State.reg, show k < x.val + 1 by omega]

/-! ### Memory -/

theorem memRead_ok {s : State} {a : Nat} (h : a ≤ 0xFFF) : s.memRead a = .ok (s.mem.read a) := by
  simp [State.memRead, show ¬ a > 0xFFF by omega]

theorem memRead_error {s : State} {a : Nat} (h : a > 0xFFF) : s.memRead a = .error (.addressOutOfRange a) := by
  simp [State.memRead, h]

theorem rangeFault_none {a n : Nat} (h : n = 0 ∨ a + n ≤ 4096) : rangeFault a n = none := by
  unfold rangeFault; rw [if_neg (by omega)]

theorem rangeFault_some {a n : Nat} (hn : 0 < n) (h : 4096 < a + n) :
    rangeFault a n = some (.addressOutOfRange (a + n - 1)) := by
  unfold rangeFault; rw [if_pos (by omega)]

theorem readBlock_ok {s : State} {a n : Nat} (h : n = 0 ∨ a + n ≤ 4096) :
    s.readBlock a n = .ok (s.mem.readList a n) := by
  simp only [State.readBlock, rangeFault_none h]

theorem readBlock_error {s : State} {a n : Nat} (hn : 0 < n) (h : 4096 < a + n) :
    s.readBlock a n = .error (.addressOutOfRange (a + n - 1)) := by
  simp only [State.readBlock, rangeFault_some hn h]

theorem writeBlock_ok {s : State} {a : Nat} {bs : List Byte} (h : bs.length = 0 ∨ a + bs.length ≤ 4096) :
    s.writeBlock a bs = .ok { s with mem := s.mem.writeList a bs } := by
  simp only [State.writeBlock, rangeFault_none h]

theorem writeBlock_error {s : State} {a : Nat} {bs : List Byte} (hn : 0 < bs.length) (h : 4096 < a + bs.length) :
    s.writeBlock a bs = .error (.addressOutOfRange (a + bs.length - 1)) := by
  simp only [State.writeBlock, rangeFault_some hn h]

/-- A block access succeeds exactly when it is empty or its highest address is in memory. -/
theorem readBlock_eq_ok {s : State} {a n : Nat} {bs : List Byte} :
    s.readBlock a n = .ok bs ↔ (n = 0 ∨ a + n ≤ 4096) ∧ bs = s.mem.readList a n := by
  by_cases h : n = 0 ∨ a + n ≤ 4096
  · simp only [readBlock_ok h, Except.ok.injEq, h, true_and]; exact eq_comm
  · simp only [readBlock_error (show 0 < n by omega) (show 4096 < a + n by omega), h, false_and, reduceCtorEq]

theorem writeBlock_eq_ok {s t : State} {a : Nat} {bs : List Byte} :
    s.writeBlock a bs = .ok t ↔
      (bs.length = 0 ∨ a + bs.length ≤ 4096) ∧ t = { s with mem := s.mem.writeList a bs } := by
  by_cases h : bs.length = 0 ∨ a + bs.length ≤ 4096
  · simp only [writeBlock_ok h, Except.ok.injEq, h, true_and]; exact eq_comm
  · simp only [writeBlock_error (show 0 < bs.length by omega) (show 4096 < a + bs.length by omega), h, false_and, reduceCtorEq]

/-- A fetch succeeds exactly when both bytes are in memory. -/
theorem fetch_ok {s : State} (h : s.pc.toNat ≤ 0xFFE) :
    s.fetch = .ok (s.mem.read s.pc.toNat, s.mem.read (s.pc.toNat + 1)) := by
  simp [State.fetch, memRead_ok (show s.pc.toNat ≤ 0xFFF by omega), memRead_ok (show s.pc.toNat + 1 ≤ 0xFFF by omega)]

/-- Otherwise it raises AddressOutOfRange with the first address above 0xFFF. -/
theorem fetch_error {s : State} (h : s.pc.toNat > 0xFFE) :
    s.fetch = .error (.addressOutOfRange (if s.pc.toNat > 0xFFF then s.pc.toNat else s.pc.toNat + 1)) := by
  by_cases h' : s.pc.toNat > 0xFFF
  · simp [State.fetch, memRead_error h', h']
  · simp [State.fetch, memRead_ok (show s.pc.toNat ≤ 0xFFF by omega), memRead_error (show s.pc.toNat + 1 > 0xFFF by omega), h']

theorem fetch_eq_ok {s : State} {b : Byte × Byte} :
    s.fetch = .ok b ↔ s.pc.toNat ≤ 0xFFE ∧ b = (s.mem.read s.pc.toNat, s.mem.read (s.pc.toNat + 1)) := by
  by_cases h : s.pc.toNat ≤ 0xFFE
  · simp [fetch_ok h, h, eq_comm]
  · rw [fetch_error (by omega)]; simp [h]

theorem decodeStep_eq_ok {b1 b2 : Byte} {i : Instr} : decodeStep b1 b2 = .ok i ↔ decode b1 b2 = .ok i := by
  unfold decodeStep
  split <;> simp_all

/-! ### The call stack -/

theorem pushPc_ok {s : State} (h : 0 < s.sp.val) :
    s.pushPc = .ok { s with sp := ⟨s.sp.val - 1, by omega⟩, stack := s.stack.set (s.sp.val - 1) s.pc (by omega) } := by
  simp [State.pushPc, show ¬ s.sp.val = 0 by omega]

theorem pushPc_error {s : State} (h : s.sp.val = 0) : s.pushPc = .error .stackOverflow := by simp [State.pushPc, h]

theorem popPc_ok {s : State} (h : s.sp.val < 16) :
    s.popPc = .ok (s.stack[s.sp.val], { s with sp := ⟨s.sp.val + 1, by omega⟩ }) := by
  simp [State.popPc, h]

theorem popPc_error {s : State} (h : ¬ s.sp.val < 16) : s.popPc = .error .stackUnderflow := by simp [State.popPc, h]

/-! ### STEP -/

/-- A STEP that completes fetched, decoded and executed one instruction, and recorded it. -/
theorem stepCore_eq_next {r : Byte} {s t : State} :
    stepCore r s = .next t ↔ ∃ op u, s.pc.toNat ≤ 0xFFE ∧
      decode (s.mem.read s.pc.toNat) (s.mem.read (s.pc.toNat + 1)) = .ok op ∧ exec op (withRnd r s) = .next u ∧
      t = recordStep (s.mem.read s.pc.toNat) (s.mem.read (s.pc.toNat + 1)) op u := by
  simp only [stepCore, orRaise_eq_next, fetch_eq_ok, decodeStep_eq_ok, mapNext_eq_next]
  constructor
  · rintro ⟨b, ⟨h, rfl⟩, op, hd, u, hu, rfl⟩; exact ⟨op, u, h, hd, hu, rfl⟩
  · rintro ⟨op, u, h, hd, hu, rfl⟩; exact ⟨_, ⟨h, rfl⟩, op, hd, u, hu, rfl⟩

end Sys2Proof.Machine
end

