-- ==== Sys2Proof/Laws/Exec.lean ====
section
/-! SUPPORT. For the instructions that check a condition before they write: what they do when it holds and what they raise
when it fails, each once, so that no later proof unfolds their checked operations. -/

namespace Sys2Proof.Machine

/-! ### 00EE and 2NNN -/

theorem exec_ret_ok {s : State} (h : s.sp.val < 16) :
    exec .ret s = .next { s with sp := ⟨s.sp.val + 1, by omega⟩, pc := s.stack[s.sp.val] + 2#16, redraw := false } := by
  simp only [exec, execRet, popPc_ok h, orRaise_ok, finish_eq]

theorem exec_ret_empty {s : State} (h : ¬s.sp.val < 16) : exec .ret s = .fault .stackUnderflow := by
  simp only [exec, execRet, popPc_error h, orRaise_error]

theorem exec_call_ok {s : State} (nnn : BitVec 12) (h : 0 < s.sp.val) :
    exec (.call nnn) s = .next { s with
      sp := ⟨s.sp.val - 1, by omega⟩, stack := s.stack.set (s.sp.val - 1) s.pc (by omega), pc := zext12 nnn, redraw := false } := by
  simp only [exec, execCall, pushPc_ok h, orRaise_ok, finish_eq]

theorem exec_call_full {s : State} (nnn : BitVec 12) (h : s.sp.val = 0) : exec (.call nnn) s = .fault .stackOverflow := by
  simp only [exec, execCall, pushPc_error h, orRaise_error]

/-! ### FX33, FX55, FX65 -/

theorem exec_ldB_ok {s : State} (x : Reg) (h : s.dataAddr 2 ≤ 0xFFF) :
    exec (.ldB x) s = .next { s with
      mem := s.mem.writeList (s.dataAddr 0) (bcdDigits (s.reg x)), pc := s.pc + 2#16, redraw := false } := by
  have : s.dataAddr 0 + (bcdDigits (s.reg x)).length ≤ 4096 := by simp only [State.dataAddr, bcdDigits_length] at h ⊢; omega
  simp only [exec, execLdB, writeBlock_ok (.inr this), orRaise_ok, advance_eq]

theorem exec_ldB_fault {s : State} (x : Reg) (h : s.dataAddr 2 > 0xFFF) :
    exec (.ldB x) s = .fault (.addressOutOfRange (s.dataAddr 2)) := by
  have : 4096 < s.dataAddr 0 + (bcdDigits (s.reg x)).length := by simp only [State.dataAddr, bcdDigits_length] at h ⊢; omega
  simp only [exec, execLdB, writeBlock_error (bcdDigits_length _ ▸ Nat.succ_pos 2) this, orRaise_error]
  rfl

theorem exec_ldMemVx_ok {s : State} (x : Reg) (h : s.dataAddr x.val ≤ 0xFFF) :
    exec (.ldMemVx x) s = .next { s with
      mem := s.mem.writeList (s.dataAddr 0) (s.regsUpTo x), i := s.i + BitVec.ofNat 16 (x.val + 1), pc := s.pc + 2#16,
      redraw := false } := by
  have : s.dataAddr 0 + (s.regsUpTo x).length ≤ 4096 := by simp only [State.dataAddr, regsUpTo_length] at h ⊢; omega
  simp only [exec, execLdMemVx, writeBlock_ok (.inr this), orRaise_ok, advance_eq]
  rfl

theorem exec_ldMemVx_fault {s : State} (x : Reg) (h : s.dataAddr x.val > 0xFFF) :
    exec (.ldMemVx x) s = .fault (.addressOutOfRange (s.dataAddr x.val)) := by
  have : 4096 < s.dataAddr 0 + (s.regsUpTo x).length := by simp only [State.dataAddr, regsUpTo_length] at h ⊢; omega
  simp only [exec, execLdMemVx, writeBlock_error (regsUpTo_length s x ▸ Nat.succ_pos _) this, orRaise_error,
    regsUpTo_length]
  rfl

theorem exec_ldVxMem_ok {s : State} (x : Reg) (h : s.dataAddr x.val ≤ 0xFFF) :
    exec (.ldVxMem x) s = .next { s with
      v := (s.setRegs 0 (s.mem.readList (s.dataAddr 0) (x.val + 1))).v, i := s.i + BitVec.ofNat 16 (x.val + 1),
      pc := s.pc + 2#16, redraw := false } := by
  have : s.dataAddr 0 + (x.val + 1) ≤ 4096 := by simp only [State.dataAddr] at h ⊢; omega
  simp only [exec, execLdVxMem, readBlock_ok (.inr this), orRaise_ok, advance_eq]
  rw [setRegs_eq]
  rfl

theorem exec_ldVxMem_fault {s : State} (x : Reg) (h : s.dataAddr x.val > 0xFFF) :
    exec (.ldVxMem x) s = .fault (.addressOutOfRange (s.dataAddr x.val)) := by
  have : 4096 < s.dataAddr 0 + (x.val + 1) := by simp only [State.dataAddr] at h ⊢; omega
  simp only [exec, execLdVxMem, readBlock_error (Nat.succ_pos _) this, orRaise_error]
  rfl

/-- The loaded registers: V0 to VX from memory, the others unchanged. -/
theorem reg_block_loaded (s : State) (x k : Reg) :
    (s.setRegs 0 (s.mem.readList (s.dataAddr 0) (x.val + 1))).reg k =
      if k.val ≤ x.val then s.mem.read (s.dataAddr k.val) else s.reg k := by
  rw [reg_setRegs, Memory.readList_length]
  by_cases h : k.val ≤ x.val
  · rw [if_pos h, if_pos (by omega), Nat.sub_zero, Memory.readList_getD _ _ (by omega)]
    rfl
  · rw [if_neg h, if_neg (by omega)]

/-! ### DXYN -/

/-- The sprite rows DXYN draws. -/
def drawnBytes (s : State) (y : Reg) (n : BitVec 4) : List Byte :=
  s.mem.readList (s.dataAddr 0) (drawnRows n (startRow (s.reg y)))

theorem drawnBytes_length (s : State) (y : Reg) (n : BitVec 4) :
    (drawnBytes s y n).length = drawnRows n (startRow (s.reg y)) := Memory.readList_length _ _ _

theorem startRow_add_drawnRows (n : BitVec 4) (vy : Byte) : startRow vy + drawnRows n (startRow vy) ≤ 32 := by
  have := startRow_lt vy
  simp only [drawnRows, Config.dispH]; omega

/-- The state a completed DXYN leaves. -/
def drawnState (x y : Reg) (n : BitVec 4) (s : State) : State :=
  let drawn := blit s.display (drawnBytes s y n) (startColumn (s.reg x)) (startRow (s.reg y))
  { ({ s with display := drawn.1 } : State).setReg VF (flagByte drawn.2) with pc := s.pc + 2#16, redraw := true }

theorem exec_drw_ok {s : State} (x y : Reg) (n : BitVec 4) (h : SpriteInMemory s y n) :
    exec (.drw x y n) s = .next (drawnState x y n s) := by
  have : drawnRows n (startRow (s.reg y)) = 0 ∨ s.dataAddr 0 + drawnRows n (startRow (s.reg y)) ≤ 4096 := by
    simp only [SpriteInMemory, drawnRows, startRow, State.dataAddr, Config.dispH] at h ⊢; omega
  simp only [exec, execDrw, State.spriteBytes, readBlock_ok this, orRaise_ok, advanceRedraw_eq]
  rfl

theorem exec_drw_fault {s : State} (x y : Reg) (n : BitVec 4) (h : ¬SpriteInMemory s y n) :
    exec (.drw x y n) s =
      .fault (.addressOutOfRange (s.dataAddr (min n.toNat (32 - (s.reg y).toNat % 32) - 1))) := by
  have h1 : 0 < drawnRows n (startRow (s.reg y)) := by
    simp only [SpriteInMemory, drawnRows, startRow, Config.dispH] at h ⊢; omega
  have h2 : 4096 < s.dataAddr 0 + drawnRows n (startRow (s.reg y)) := by
    simp only [SpriteInMemory, drawnRows, startRow, State.dataAddr, Config.dispH] at h ⊢; omega
  simp only [exec, execDrw, State.spriteBytes, readBlock_error h1 h2, orRaise_error]
  congr 2
  simp only [drawnRows, startRow, State.dataAddr, Config.dispH] at h1 ⊢
  omega

/-- The sprite bit on a pixel of the display, in the statements' words. -/
theorem rowsBit_drawnBytes (s : State) (x y : Reg) (n : BitVec 4) {cx cy : Nat} (hy : cy < 32) :
    rowsBit (drawnBytes s y n) (startColumn (s.reg x)) (startRow (s.reg y)) cx cy = true ↔ spriteAt s x y n cx cy := by
  have hr := startRow_lt (s.reg y)
  simp only [rowsBit, drawnBytes_length, Bool.and_eq_true, decide_eq_true_eq, spriteAt]
  constructor
  · rintro ⟨⟨hx, hrow⟩, hbit⟩
    have hk : cy - startRow (s.reg y) < drawnRows n (startRow (s.reg y)) := by omega
    rw [drawnBytes, Memory.readList_getD _ _ hk] at hbit
    have := lt_drawnRows.1 hk
    simp only [startColumn, startRow, Config.dispW, Config.dispH] at *
    exact ⟨hx.1, hx.2, hrow.1, by omega, hbit⟩
  · intro h
    have hk : cy - startRow (s.reg y) < drawnRows n (startRow (s.reg y)) := by
      rw [lt_drawnRows]; simp only [startRow, Config.dispH] at hr ⊢; omega
    rw [drawnBytes, Memory.readList_getD _ _ hk]
    simp only [startColumn, startRow, Config.dispW, Config.dispH] at *
    exact ⟨⟨⟨h.1, h.2.1⟩, h.2.2.1, by omega⟩, h.2.2.2.2⟩

/-! ### FX0A -/

theorem exec_ldVxK_key {s : State} (x : Reg) {k : Key} (h : s.latch = .key k) :
    exec (.ldVxK x) s = .next { s.setReg x (keyByte k) with latch := .none, pc := s.pc + 2#16, redraw := false } := by
  simp only [exec, execLdVxK, h, advance_eq]
  rfl

theorem exec_ldVxK_wait {s : State} (x : Reg) (h : s.latch = .none ∨ s.latch = .wantEvent) :
    exec (.ldVxK x) s = .next { s with latch := .wantEvent, redraw := false } := by
  rcases h with h | h <;> simp only [exec, execLdVxK, h, finish_eq]

/-! ### Inversion: what a next state tells -/

theorem next_inj {s t : State} (h : (Host.Outcome.next s : Result) = .next t) : t = s := by
  simpa [eq_comm] using h

theorem exec_ret_next {s t : State} (h : exec .ret s = .next t) :
    ∃ hs : s.sp.val < 16,
      t = { s with sp := ⟨s.sp.val + 1, by omega⟩, pc := s.stack[s.sp.val] + 2#16, redraw := false } := by
  by_cases hs : s.sp.val < 16
  · exact ⟨hs, next_inj (exec_ret_ok hs ▸ h)⟩
  · rw [exec_ret_empty hs] at h; simp at h

theorem exec_call_next {nnn : BitVec 12} {s t : State} (h : exec (.call nnn) s = .next t) :
    ∃ hs : 0 < s.sp.val, t = { s with
      sp := ⟨s.sp.val - 1, by omega⟩, stack := s.stack.set (s.sp.val - 1) s.pc (by omega), pc := zext12 nnn, redraw := false } := by
  by_cases hs : 0 < s.sp.val
  · exact ⟨hs, next_inj (exec_call_ok _ hs ▸ h)⟩
  · rw [exec_call_full _ (by omega)] at h; simp at h

theorem exec_ldB_next {x : Reg} {s t : State} (h : exec (.ldB x) s = .next t) :
    s.dataAddr 2 ≤ 0xFFF ∧ t = { s with
      mem := s.mem.writeList (s.dataAddr 0) (bcdDigits (s.reg x)), pc := s.pc + 2#16, redraw := false } := by
  by_cases hs : s.dataAddr 2 ≤ 0xFFF
  · exact ⟨hs, next_inj (exec_ldB_ok _ hs ▸ h)⟩
  · rw [exec_ldB_fault _ (by omega)] at h; simp at h

theorem exec_ldMemVx_next {x : Reg} {s t : State} (h : exec (.ldMemVx x) s = .next t) :
    s.dataAddr x.val ≤ 0xFFF ∧ t = { s with
      mem := s.mem.writeList (s.dataAddr 0) (s.regsUpTo x), i := s.i + BitVec.ofNat 16 (x.val + 1), pc := s.pc + 2#16,
      redraw := false } := by
  by_cases hs : s.dataAddr x.val ≤ 0xFFF
  · exact ⟨hs, next_inj (exec_ldMemVx_ok _ hs ▸ h)⟩
  · rw [exec_ldMemVx_fault _ (by omega)] at h; simp at h

theorem exec_ldVxMem_next {x : Reg} {s t : State} (h : exec (.ldVxMem x) s = .next t) :
    s.dataAddr x.val ≤ 0xFFF ∧ t = { s with
      v := (s.setRegs 0 (s.mem.readList (s.dataAddr 0) (x.val + 1))).v, i := s.i + BitVec.ofNat 16 (x.val + 1),
      pc := s.pc + 2#16, redraw := false } := by
  by_cases hs : s.dataAddr x.val ≤ 0xFFF
  · exact ⟨hs, next_inj (exec_ldVxMem_ok _ hs ▸ h)⟩
  · rw [exec_ldVxMem_fault _ (by omega)] at h; simp at h

theorem exec_drw_next {x y : Reg} {n : BitVec 4} {s t : State} (h : exec (.drw x y n) s = .next t) :
    SpriteInMemory s y n ∧ t = drawnState x y n s := by
  by_cases hs : SpriteInMemory s y n
  · exact ⟨hs, next_inj (exec_drw_ok x y n hs ▸ h)⟩
  · rw [exec_drw_fault x y n hs] at h; simp at h

theorem exec_ldVxK_next {x : Reg} {s t : State} (h : exec (.ldVxK x) s = .next t) :
    (∃ k, s.latch = .key k ∧ t = { s.setReg x (keyByte k) with latch := .none, pc := s.pc + 2#16, redraw := false }) ∨
      (s.latch = .none ∨ s.latch = .wantEvent) ∧ t = { s with latch := .wantEvent, redraw := false } := by
  cases hs : s.latch with
  | key k => exact .inl ⟨k, rfl, next_inj (exec_ldVxK_key x hs ▸ h)⟩
  | none => exact .inr ⟨.inl rfl, next_inj (exec_ldVxK_wait x (.inl hs) ▸ h)⟩
  | wantEvent => exact .inr ⟨.inr rfl, next_inj (exec_ldVxK_wait x (.inr hs) ▸ h)⟩

end Sys2Proof.Machine
end

