-- ==== Sys2Proof/Laws/PerInstr.lean ====
section
/-! SUPPORT. Per-instruction facts: the encoded word of every instruction has the fixed bits of its row of the opcode map
(30_encoding.md R90). -/

namespace Sys2Proof.Laws.EncodePattern

/-- The instruction's word is one its row of the opcode map matches. -/
def Statement (i : Instr) : Prop := encode i &&& i.pattern.1 = i.pattern.2

theorem encNNN_fixed (g : BitVec 4) (nnn : BitVec 12) : encNNN g nnn &&& 0xF000#16 = g ++ 0#12 := by
  rw [encNNN, show (0xF000#16) = 0xF#4 ++ 0#12 from rfl, BitVec.and_append, BitVec.and_zero]
  exact congrArg (· ++ 0#12) (BitVec.and_allOnes (x := g))

theorem encXNN_group (g : BitVec 4) (x : Reg) (nn : Byte) : encXNN g x nn &&& 0xF000#16 = g ++ 0#12 := by
  rw [encXNN, show (0xF000#16) = 0xF#4 ++ 0#4 ++ 0#8 from rfl, BitVec.and_append, BitVec.and_append, BitVec.and_zero,
    BitVec.and_zero, show g &&& 0xF#4 = g from BitVec.and_allOnes (x := g)]
  revert g; decide

theorem encXNN_low (g : BitVec 4) (x : Reg) (nn : Byte) : encXNN g x nn &&& 0xF0FF#16 = g ++ 0#4 ++ nn := by
  rw [encXNN, show (0xF0FF#16) = 0xF#4 ++ 0#4 ++ 0xFF#8 from rfl, BitVec.and_append, BitVec.and_append, BitVec.and_zero,
    show g &&& 0xF#4 = g from BitVec.and_allOnes (x := g), show nn &&& 0xFF#8 = nn from BitVec.and_allOnes (x := nn)]

theorem encXYN_group (g : BitVec 4) (x y : Reg) (n : BitVec 4) : encXYN g x y n &&& 0xF000#16 = g ++ 0#12 := by
  rw [encXYN, show (0xF000#16) = 0xF#4 ++ 0#4 ++ 0#4 ++ 0#4 from rfl, BitVec.and_append, BitVec.and_append,
    BitVec.and_append, BitVec.and_zero, BitVec.and_zero, BitVec.and_zero,
    show g &&& 0xF#4 = g from BitVec.and_allOnes (x := g)]
  revert g; decide

theorem encXYN_low (g : BitVec 4) (x y : Reg) (n : BitVec 4) :
    encXYN g x y n &&& 0xF00F#16 = g ++ 0#4 ++ 0#4 ++ n := by
  rw [encXYN, show (0xF00F#16) = 0xF#4 ++ 0#4 ++ 0#4 ++ 0xF#4 from rfl, BitVec.and_append, BitVec.and_append,
    BitVec.and_append, BitVec.and_zero, BitVec.and_zero, show g &&& 0xF#4 = g from BitVec.and_allOnes (x := g),
    show n &&& 0xF#4 = n from BitVec.and_allOnes (x := n)]

theorem cls : Statement .cls := rfl
theorem ret : Statement .ret := rfl
theorem sys (nnn : BitVec 12) : Statement (.sys nnn) := encNNN_fixed _ nnn
theorem jp (nnn : BitVec 12) : Statement (.jp nnn) := encNNN_fixed _ nnn
theorem call (nnn : BitVec 12) : Statement (.call nnn) := encNNN_fixed _ nnn
theorem seImm (x : Reg) (nn : Byte) : Statement (.seImm x nn) := encXNN_group _ x nn
theorem sneImm (x : Reg) (nn : Byte) : Statement (.sneImm x nn) := encXNN_group _ x nn
theorem seReg (x y : Reg) : Statement (.seReg x y) := encXYN_low _ x y _
theorem ldImm (x : Reg) (nn : Byte) : Statement (.ldImm x nn) := encXNN_group _ x nn
theorem addImm (x : Reg) (nn : Byte) : Statement (.addImm x nn) := encXNN_group _ x nn
theorem ldReg (x y : Reg) : Statement (.ldReg x y) := encXYN_low _ x y _
theorem orReg (x y : Reg) : Statement (.orReg x y) := encXYN_low _ x y _
theorem andReg (x y : Reg) : Statement (.andReg x y) := encXYN_low _ x y _
theorem xorReg (x y : Reg) : Statement (.xorReg x y) := encXYN_low _ x y _
theorem addReg (x y : Reg) : Statement (.addReg x y) := encXYN_low _ x y _
theorem subReg (x y : Reg) : Statement (.subReg x y) := encXYN_low _ x y _
theorem shr (x y : Reg) : Statement (.shr x y) := encXYN_low _ x y _
theorem subn (x y : Reg) : Statement (.subn x y) := encXYN_low _ x y _
theorem shl (x y : Reg) : Statement (.shl x y) := encXYN_low _ x y _
theorem sneReg (x y : Reg) : Statement (.sneReg x y) := encXYN_low _ x y _
theorem ldI (nnn : BitVec 12) : Statement (.ldI nnn) := encNNN_fixed _ nnn
theorem jpV0 (nnn : BitVec 12) : Statement (.jpV0 nnn) := encNNN_fixed _ nnn
theorem rnd (x : Reg) (nn : Byte) : Statement (.rnd x nn) := encXNN_group _ x nn
theorem drw (x y : Reg) (n : BitVec 4) : Statement (.drw x y n) := encXYN_group _ x y n
theorem skp (x : Reg) : Statement (.skp x) := encXNN_low _ x _
theorem sknp (x : Reg) : Statement (.sknp x) := encXNN_low _ x _
theorem ldVxDt (x : Reg) : Statement (.ldVxDt x) := encXNN_low _ x _
theorem ldVxK (x : Reg) : Statement (.ldVxK x) := encXNN_low _ x _
theorem ldDtVx (x : Reg) : Statement (.ldDtVx x) := encXNN_low _ x _
theorem ldStVx (x : Reg) : Statement (.ldStVx x) := encXNN_low _ x _
theorem addI (x : Reg) : Statement (.addI x) := encXNN_low _ x _
theorem ldF (x : Reg) : Statement (.ldF x) := encXNN_low _ x _
theorem ldB (x : Reg) : Statement (.ldB x) := encXNN_low _ x _
theorem ldMemVx (x : Reg) : Statement (.ldMemVx x) := encXNN_low _ x _
theorem ldVxMem (x : Reg) : Statement (.ldVxMem x) := encXNN_low _ x _

end Sys2Proof.Laws.EncodePattern
end

