-- ==== Sys2Proof/Laws/Step.lean ====
section
/-! SUPPORT. One step, transaction by transaction: what it is when the host's list begins with each, and the small facts
about timers, keys and the latch the transactions rest on. -/

namespace Sys2Proof.Machine

/-! ### The transactions (00_scope.md R7) -/

variable {s : State} {rest : List Transaction}

theorem step_idle (h : s.inbox = []) : step s = stepCore (Config.hostRandom s.draws) (countDraw s) := by rw [step, h]

theorem step_step {r : Byte} (h : s.inbox = .step r :: rest) : step s = stepCore r (withInbox rest s) := by rw [step, h]

theorem step_tick (h : s.inbox = .tick :: rest) : step s = .next (tick (withInbox rest s)) := by rw [step, h]

theorem step_keyDown {k : Key} (h : s.inbox = .keyDown k :: rest) : step s = .next (keyDown k (withInbox rest s)) := by
  rw [step, h]

theorem step_keyUp {k : Key} (h : s.inbox = .keyUp k :: rest) : step s = .next (keyUp k (withInbox rest s)) := by
  rw [step, h]

theorem step_displayRead (h : s.inbox = .displayRead :: rest) : step s = .next (displayRead (withInbox rest s)) := by
  rw [step, h]

theorem step_reset (h : s.inbox = .reset :: rest) : step s = .next (resetMachine (withInbox rest s)) := by rw [step, h]

theorem step_load {rom : List Byte} (h : s.inbox = .load rom :: rest) : step s = load rom (withInbox rest s) := by
  rw [step, h]

/-- When the next transaction is a STEP, the step is that STEP, on the same machine. -/
theorem step_of_stepsWith {u : State} {r : Byte} (h : StepsWith s r u) :
    step s = stepCore r u ∧ u = { s with inbox := u.inbox, draws := u.draws } := by
  rcases h with ⟨h, rfl, rfl⟩ | ⟨rest, h, rfl⟩
  · exact ⟨step_idle h, rfl⟩
  · exact ⟨step_step h, rfl⟩

/-- LOAD's three answers (70_reset_and_hazards.md R263, R264). -/
theorem load_ok {rom : List Byte} (hl : rom.length ≤ 3584) (hp : s.phase = .reset) :
    load rom s = .next { s with mem := s.mem.writeList Config.progBase rom, phase := .loaded } := by
  simp only [load, Config.romMax, hp, show ¬rom.length > 3584 by omega, if_false]

theorem load_tooLong {rom : List Byte} (hl : rom.length > 3584) : load rom s = .refused .romTooLong := by
  simp only [load, Config.romMax, hl, if_true]

theorem load_outOfOrder {rom : List Byte} (hl : rom.length ≤ 3584) (hp : s.phase ≠ .reset) :
    load rom s = .refused .loadOutOfOrder := by
  simp only [load, Config.romMax, show ¬rom.length > 3584 by omega, if_false]
  split <;> first | exact absurd ‹_› hp | rfl

/-- A LOAD that completes was short enough and in its place, and writes the image and the boot order only. -/
theorem load_next {rom : List Byte} {t : State} (h : load rom s = .next t) :
    rom.length ≤ 3584 ∧ s.phase = .reset ∧
      t = { s with mem := s.mem.writeList Config.progBase rom, phase := .loaded } := by
  by_cases hl : rom.length ≤ 3584
  · by_cases hp : s.phase = .reset
    · exact ⟨hl, hp, next_inj (load_ok hl hp ▸ h)⟩
    · rw [load_outOfOrder hl hp] at h; simp at h
  · rw [load_tooLong (by omega)] at h; simp at h

/-! ### Timers, keys, latch -/

/-- A timer is floored at 0 (44_keypad_timers.md R209). -/
theorem countDown_toNat (b : Byte) : (countDown b).toNat = b.toNat - 1 := by
  have := b.isLt
  unfold countDown
  split
  · rw [BitVec.toNat_ofNat]; omega
  · omega

/-- Key k's mask has bit k and no other. -/
theorem keyMask_bit (k j : Key) : (keyMask k).getLsbD j.val = decide (j = k) := by revert k j; decide

/-- A release that is not of a waited-for held key leaves the latch. -/
theorem latchOnRelease_eq (k : Key) (d : Bool) (l : Latch) :
    latchOnRelease k d l = if l = .wantEvent ∧ d = true then .key k else l := by
  cases l <;> cases d <;> rfl

end Sys2Proof.Machine
end

