-- ==== Sys2Proof/Tests/Slice0.lean ====
section
/-! SUPPORT. The model's own tests: the well-formedness check, the decoding of every operation by words written out from
30_encoding.md R90, one step of every instruction on vectors of 95_test_vectors.md (the expected values are the
spec's), and, for every statement of Certificates/Slice0/Obligations.lean that has hypotheses, a witness that meets
them. -/

namespace Sys2Proof.Tests

open Sys2Proof Sys2Proof.Machine

/-! ### Well-formedness (Sys2Proof/WellFormed.lean) -/

/-- 0x0E0 and 0x0EE are not SYS operands: those words are CLS and RET (R84). -/
theorem test_wf_refuses_sys_of_cls_and_ret : (Instr.sys 0x0E0#12).wf = false ∧ (Instr.sys 0x0EE#12).wf = false := by decide

theorem test_wf_accepts_other_sys : (Instr.sys 0x234#12).wf = true ∧ (Instr.sys 0x0E1#12).wf = true := by decide

/-! ### Decoding (R84 to R90); the words are written out from the pattern of each row -/

theorem test_decode_group0 : decode 0x00 0xE0 = .ok .cls ∧ decode 0x00 0xEE = .ok .ret ∧
    decode 0x02 0x34 = .ok (.sys 0x234) ∧ decode 0x00 0x00 = .ok (.sys 0x000) := by decide

theorem test_decode_jumps : decode 0x12 0x08 = .ok (.jp 0x208) ∧ decode 0x22 0x40 = .ok (.call 0x240) ∧
    decode 0xB3 0x0F = .ok (.jpV0 0x30F) := by decide

theorem test_decode_skips : decode 0x33 0x2A = .ok (.seImm 3 0x2A) ∧ decode 0x43 0x2A = .ok (.sneImm 3 0x2A) ∧
    decode 0x51 0x20 = .ok (.seReg 1 2) ∧ decode 0x91 0x20 = .ok (.sneReg 1 2) := by decide

theorem test_decode_immediates : decode 0x63 0xFF = .ok (.ldImm 3 0xFF) ∧ decode 0x73 0x01 = .ok (.addImm 3 0x01) ∧
    decode 0xA2 0x20 = .ok (.ldI 0x220) ∧ decode 0xC1 0x0F = .ok (.rnd 1 0x0F) := by decide

theorem test_decode_group8 : decode 0x81 0x20 = .ok (.ldReg 1 2) ∧ decode 0x81 0x21 = .ok (.orReg 1 2) ∧
    decode 0x81 0x22 = .ok (.andReg 1 2) ∧ decode 0x81 0x23 = .ok (.xorReg 1 2) ∧
    decode 0x81 0x24 = .ok (.addReg 1 2) ∧ decode 0x81 0x25 = .ok (.subReg 1 2) ∧
    decode 0x81 0x26 = .ok (.shr 1 2) ∧ decode 0x81 0x27 = .ok (.subn 1 2) ∧ decode 0x81 0x2E = .ok (.shl 1 2) := by decide

theorem test_decode_draw_and_keys : decode 0xD1 0x25 = .ok (.drw 1 2 5) ∧ decode 0xE5 0x9E = .ok (.skp 5) ∧
    decode 0xE5 0xA1 = .ok (.sknp 5) := by decide

theorem test_decode_groupF : decode 0xF2 0x07 = .ok (.ldVxDt 2) ∧ decode 0xF5 0x0A = .ok (.ldVxK 5) ∧
    decode 0xF2 0x15 = .ok (.ldDtVx 2) ∧ decode 0xF2 0x18 = .ok (.ldStVx 2) ∧ decode 0xF2 0x1E = .ok (.addI 2) ∧
    decode 0xF4 0x29 = .ok (.ldF 4) ∧ decode 0xF1 0x33 = .ok (.ldB 1) ∧ decode 0xF2 0x55 = .ok (.ldMemVx 2) ∧
    decode 0xF2 0x65 = .ok (.ldVxMem 2) := by decide

/-- The words of 95_test_vectors.md F1 that are unknown at decode. -/
theorem test_decode_rejects : [0x5121#16, 0x8128, 0x812F, 0x9121, 0xE19F, 0xE1A0, 0xE000, 0xF100, 0xF175, 0xF130,
    0xFFFF].all (fun w => decide (decodeWord w = .error (.unknownOpcode w))) = true := by decide

/-- The host's view numbers the 16-bit word as the spec writes it. -/
theorem test_decodeTableWord : decodeTableWord 16 0xD125 = some (.drw 1 2 5) ∧ decodeTableWord 16 0x00EE = some .ret ∧
    decodeTableWord 16 0x5121 = none := by decide

theorem test_encode_words : encode (.drw 1 2 5) = 0xD125 ∧ encode (.sknp 5) = 0xE5A1 ∧ encode (.jpV0 0x30F) = 0xB30F ∧
    encode (.shl 1 2) = 0x812E := by decide

/-! ### One step: a small state, the instruction's bytes at `pc`, one STEP -/

/-- The reset state with some registers set. -/
def regs (l : List (Reg × Byte)) : State := l.foldl (fun s p => s.setReg p.1 p.2) State.reset

/-- Two bytes at `pc`, and a STEP with random input `r` next. -/
def ready (r b1 b2 : Byte) (s : State) : State :=
  { s with mem := s.mem.writeList s.pc.toNat [b1, b2], inbox := [.step r] }

/-- What holds of the state after one step; false of a fault or a refusal. -/
def onNext (s : State) (p : State → Bool) : Bool :=
  match step s with
  | .next t => p t
  | .fault _ => false
  | .refused _ => false

/-- The fault one step ends in, if it does. -/
def faultOf (s : State) : Option Fault :=
  match step s with
  | .next _ => none
  | .fault f => some f
  | .refused _ => none

/-- One STEP of the bytes on a state. -/
def runs (b1 b2 : Byte) (s : State) (p : State → Bool) : Bool := onNext (ready 0 b1 b2 s) p

/-! Load, ALU, random (95_test_vectors.md A0 to A3). -/

theorem test_ldImm : runs 0x6F 0x2A State.reset (fun t => t.reg VF == 0x2A && t.pc == 0x202) := by decide
theorem test_addImm_no_flag : runs 0x73 0x01 (regs [(3, 0xFF), (VF, 0x55)]) (fun t => t.reg 3 == 0 && t.reg VF == 0x55) := by
  decide
theorem test_ldReg : runs 0x81 0x20 (regs [(1, 0x12), (2, 0x34), (VF, 0x55)])
    (fun t => t.reg 1 == 0x34 && t.reg 2 == 0x34 && t.reg VF == 0x55) := by decide
theorem test_orReg : runs 0x81 0x21 (regs [(1, 0xAA), (2, 0x81), (VF, 0x55)])
    (fun t => t.reg 1 == 0xAB && t.reg VF == 0) := by decide
theorem test_andReg : runs 0x81 0x22 (regs [(1, 0xAA), (2, 0x81), (VF, 0x55)])
    (fun t => t.reg 1 == 0x80 && t.reg VF == 0) := by decide
theorem test_xorReg : runs 0x81 0x23 (regs [(1, 0xAA), (2, 0x81), (VF, 0x55)])
    (fun t => t.reg 1 == 0x2B && t.reg VF == 0) := by decide
theorem test_addReg : runs 0x81 0x24 (regs [(1, 0xAA), (2, 0x81)]) (fun t => t.reg 1 == 0x2B && t.reg VF == 1) := by decide
theorem test_addReg_flag_wins : runs 0x8F 0x24 (regs [(VF, 0xC8), (2, 0x64)]) (fun t => t.reg VF == 1) := by decide
theorem test_subReg_borrow : runs 0x81 0x25 (regs [(1, 0x05), (2, 0x0A)]) (fun t => t.reg 1 == 0xFB && t.reg VF == 0) := by
  decide
theorem test_subReg_equal : runs 0x81 0x25 (regs [(1, 0x07), (2, 0x07)]) (fun t => t.reg 1 == 0 && t.reg VF == 1) := by
  decide
theorem test_shr_of_vy : runs 0x81 0x26 (regs [(1, 0xAA), (2, 0x81)]) (fun t => t.reg 1 == 0x40 && t.reg VF == 1) := by
  decide
theorem test_subn : runs 0x81 0x27 (regs [(1, 0xAA), (2, 0x81)]) (fun t => t.reg 1 == 0xD7 && t.reg VF == 0) := by decide
theorem test_subn_vf_source : runs 0x81 0xF7 (regs [(1, 0xC8), (VF, 0x64)]) (fun t => t.reg 1 == 0x9C && t.reg VF == 0) := by
  decide
theorem test_shl_of_vy : runs 0x81 0x2E (regs [(1, 0xAA), (2, 0x81)]) (fun t => t.reg 1 == 0x02 && t.reg VF == 1) := by
  decide
theorem test_rnd : onNext (ready 0xA7 0xC1 0x0F (regs [(1, 0x55)])) (fun t => t.reg 1 == 0x07) := by decide

/-! Control transfer (B1). -/

theorem test_sys_faults : faultOf (ready 0 0x02 0x34 State.reset) = some (.unknownOpcode 0x0234) := by decide
theorem test_ret : runs 0x00 0xEE { State.reset with sp := 0, stack := State.reset.stack.set 0 0x0ABC }
    (fun t => t.pc == 0x0ABE && t.sp == 1) := by decide
theorem test_ret_empty : faultOf (ready 0 0x00 0xEE State.reset) = some .stackUnderflow := by decide
theorem test_jp : runs 0x12 0x08 State.reset (fun t => t.pc == 0x208) := by decide
theorem test_call : runs 0x2F 0xFF { State.reset with sp := 1 } (fun t => t.pc == 0xFFF && t.sp == 0 && t.stack[0] == 0x200) := by
  decide
theorem test_call_full : faultOf (ready 0 0x22 0x00 { State.reset with sp := 0 }) = some .stackOverflow := by decide
theorem test_seImm : runs 0x33 0x2A (regs [(3, 0x2A)]) (fun t => t.pc == 0x204) &&
    runs 0x33 0x2A (regs [(3, 0x2B)]) (fun t => t.pc == 0x202) := by decide
theorem test_sneImm : runs 0x43 0x2A (regs [(3, 0x2A)]) (fun t => t.pc == 0x202) &&
    runs 0x43 0x2A (regs [(3, 0x2B)]) (fun t => t.pc == 0x204) := by decide
theorem test_seReg : runs 0x51 0x20 (regs [(1, 7), (2, 7)]) (fun t => t.pc == 0x204) &&
    runs 0x51 0x20 (regs [(1, 7), (2, 8)]) (fun t => t.pc == 0x202) := by decide
theorem test_sneReg : runs 0x91 0x20 (regs [(1, 7), (2, 7)]) (fun t => t.pc == 0x202) &&
    runs 0x91 0x20 (regs [(1, 7), (2, 8)]) (fun t => t.pc == 0x204) := by decide
theorem test_jpV0_passes_0xFFF : runs 0xBF 0xFF (regs [(0, 0xFF)]) (fun t => t.pc == 0x10FE) := by decide

/-! Index and memory (C1 to C3). -/

theorem test_ldI : runs 0xA2 0x20 { State.reset with i := 0xFFFF } (fun t => t.i == 0x220) := by decide
theorem test_addI_wraps : runs 0xF2 0x1E { regs [(2, 1), (VF, 0x55)] with i := 0xFFFF } (fun t => t.i == 0 && t.reg VF == 0x55) := by
  decide
theorem test_ldF_low_nibble : runs 0xF4 0x29 (regs [(4, 0x1A)]) (fun t => t.i == 0x32) := by decide
theorem test_ldB_at_top : runs 0xF1 0x33 { regs [(1, 0xFF)] with i := 0xFFD }
    (fun t => t.mem.readList 0xFFD 3 == [2, 5, 5] && t.i == 0xFFD) := by decide
theorem test_ldB_out_of_range : faultOf (ready 0 0xF1 0x33 { regs [(1, 0xFF)] with i := 0xFFE }) =
    some (.addressOutOfRange 0x1000) := by decide
theorem test_ldMemVx : runs 0xF2 0x55 { regs [(0, 1), (1, 2), (2, 3), (3, 4)] with i := 0x400 }
    (fun t => t.mem.readList 0x400 4 == [1, 2, 3, 0] && t.i == 0x403) := by decide
theorem test_ldVxMem_font : runs 0xF4 0x65 (regs [(5, 0x77)])
    (fun t => t.regsUpTo 5 == [0xF0, 0x90, 0x90, 0x90, 0xF0, 0x77] && t.i == 5) := by decide
theorem test_ldVxMem_out_of_range : faultOf (ready 0 0xF1 0x65 { State.reset with i := 0xFFF }) =
    some (.addressOutOfRange 0x1000) := by decide

/-! Display (D6, D7, D14, CLS). -/

/-- A state with sprite bytes at 0x300, I there, and one display byte set. -/
def drawing (l : List (Reg × Byte)) (sprite : List Byte) (d0 : Byte) : State :=
  let s := regs l
  { s with i := 0x300, mem := s.mem.writeList 0x300 sprite, display := s.display.set 0 d0 }

theorem test_cls : runs 0x00 0xE0 (drawing [(VF, 0x55)] [] 0xAA)
    (fun t => t.display[0] == 0 && t.display[255] == 0 && t.reg VF == 0x55 && t.redraw) := by decide
set_option maxRecDepth 8000 in
theorem test_drw_collision : runs 0xD0 0x11 (drawing [] [0xC0] 0x80)
    (fun t => t.display[0] == 0x40 && t.display[8] == 0 && t.reg VF == 1 && t.redraw) := by decide
set_option maxRecDepth 8000 in
theorem test_drw_clips_and_reads_old_VF : runs 0xD0 0x12 (drawing [(0, 0xFF), (1, 0xFF), (VF, 0x55)] [0xFF, 0xFF] 0)
      (fun t => t.display[255] == 0x01 && t.display[248] == 0 && t.display[7] == 0 && t.reg VF == 0) &&
    runs 0xDF 0x11 (drawing [(VF, 3), (1, 2)] [0x81] 0)
      (fun t => t.display[16] == 0x10 && t.display[17] == 0x20 && t.reg VF == 0) := by decide

/-! Keypad and timers (E1 to E3). -/

theorem test_skp : runs 0xE1 0x9E { regs [(1, 0x13)] with keypad := 0x0008 } (fun t => t.pc == 0x204) &&
    runs 0xE1 0x9E { regs [(1, 0x06)] with keypad := 0x0020 } (fun t => t.pc == 0x202) := by decide
theorem test_sknp : runs 0xE1 0xA1 { regs [(1, 0x05)] with keypad := 0x0020 } (fun t => t.pc == 0x202) &&
    runs 0xE1 0xA1 { regs [(1, 0x06)] with keypad := 0x0020 } (fun t => t.pc == 0x204) := by decide
theorem test_ldVxDt : runs 0xF2 0x07 { State.reset with dt := 0x3C } (fun t => t.reg 2 == 0x3C && t.dt == 0x3C) := by decide
theorem test_ldVxK_delivers_key_0 : runs 0xF3 0x0A { regs [(3, 0x77)] with latch := .key 0 }
    (fun t => t.reg 3 == 0 && t.latch == .none && t.pc == 0x202) := by decide
theorem test_ldVxK_waits : runs 0xF5 0x0A { regs [(5, 0x77)] with keypad := 2 }
    (fun t => t.reg 5 == 0x77 && t.latch == .wantEvent && t.pc == 0x200) := by decide
theorem test_ldDtVx : runs 0xF2 0x15 (regs [(2, 0x3C)]) (fun t => t.dt == 0x3C && t.st == 0) := by decide
theorem test_ldStVx : runs 0xF2 0x18 (regs [(2, 0x08)]) (fun t => t.st == 0x08 && t.dt == 0) := by decide

theorem test_tick : onNext { State.reset with dt := 2, st := 0, inbox := [.tick] } (fun t => t.dt == 1 && t.st == 0) := by
  decide
theorem test_keyUp_captures : onNext { State.reset with keypad := 0x18, latch := .wantEvent, inbox := [.keyUp 4] }
    (fun t => t.keypad == 0x08 && t.latch == .key 4) := by decide
theorem test_keyUp_of_idle_key : onNext { State.reset with latch := .wantEvent, inbox := [.keyUp 3] }
    (fun t => t.keypad == 0 && t.latch == .wantEvent) := by decide
theorem test_keyDown : onNext { State.reset with latch := .wantEvent, inbox := [.keyDown 7] }
    (fun t => t.keypad == 0x80 && t.latch == .wantEvent) := by decide

/-! Reset, load, the host's word (G1, G2, B4). -/

theorem test_load : onNext { State.reset with inbox := [.load [0x12, 0x00]] }
    (fun t => t.mem.readList 0x200 3 == [0x12, 0, 0] && t.mem.readList 0 5 == [0xF0, 0x90, 0x90, 0x90, 0xF0]) := by decide
theorem test_step_after_reset_is_sys : faultOf (ready 0 0 0 State.reset) = some (.unknownOpcode 0) := by decide
theorem test_fetch_at_top : faultOf { State.reset with pc := 0xFFF, inbox := [.step 0] } = some (.addressOutOfRange 0x1000) := by
  decide
theorem test_withFetchWord : onNext (State.reset.withFetchWord 16 0x6A2B) (fun t => t.reg 10 == 0x2B && t.pc == 0x202) := by
  decide
theorem test_withFetchWord_past_the_end : onNext ({ State.reset with pc := 0x1000, inbox := [.tick] }.withFetchWord 16 0x6A2B)
    (fun t => t.reg 10 == 0x2B) := by decide

/-! ### Witnesses: for every statement with hypotheses, concrete states and operands that meet them, each clause at a
boundary of its range -/

/-- A machine that fetches the given bytes at 0x200 when its host issues nothing. -/
def idle (b1 b2 : Byte) (s : State) : State := { s with mem := s.mem.writeList 0x200 [b1, b2], inbox := [] }

/-- The next transaction is a STEP: by the host's list, and by its being empty. -/
theorem stepsWith_ready (r b1 b2 : Byte) (s : State) : StepsWith (ready r b1 b2 s) r (withInbox [] (ready r b1 b2 s)) :=
  .inr ⟨[], rfl, rfl⟩

theorem stepsWith_idle (b1 b2 : Byte) (s : State) :
    StepsWith (idle b1 b2 s) (Config.hostRandom s.draws) (countDraw (idle b1 b2 s)) := .inl ⟨rfl, rfl, rfl⟩

theorem witness_StepPassesHostByteToRandom :
    StepsWith (ready 0xA7 0xC1 0x0F State.reset) 0xA7 (withInbox [] (ready 0xA7 0xC1 0x0F State.reset)) ∧
    InstructionAtPc (ready 0xA7 0xC1 0x0F State.reset) (.rnd 1 0x0F) ∧
    StepsWith (idle 0xCF 0xFF State.reset) (Config.hostRandom 0) (countDraw (idle 0xCF 0xFF State.reset)) ∧
    InstructionAtPc (idle 0xCF 0xFF State.reset) (.rnd VF 0xFF) :=
  ⟨stepsWith_ready _ _ _ _, ⟨by decide, by decide⟩, stepsWith_idle _ _ _, ⟨by decide, by decide⟩⟩

theorem witness_OnlyRandomReadsTheRandomInput : ∀ x nn, Instr.addReg 1 2 ≠ .rnd x nn := by simp

theorem witness_ReturnResumesAfterTheCall : ({ State.reset with sp := 0 } : State).sp.val < 16 ∧
    ({ State.reset with sp := 15 } : State).sp.val < 16 ∧ State.reset.sp.val = 16 := by decide

theorem witness_CallPushesItsOwnAddress : 0 < ({ State.reset with sp := 1 } : State).sp.val ∧ 0 < State.reset.sp.val ∧
    ({ State.reset with sp := 0 } : State).sp.val = 0 := by decide

theorem witness_CallThenReturnRestoresPcAndSp : ∃ t, exec (.call 0x240) State.reset = .next t ∧ KeepsStack t t :=
  ⟨_, rfl, rfl, rfl⟩

/-- The comparisons' conditions hold and fail, with X = F among the registers tested. -/
theorem witness_ComparisonsSkipOneInstruction :
    (regs [(VF, 1)]).reg VF = 1 ∧ (regs [(VF, 1)]).reg VF ≠ 2 ∧ (regs [(1, 7), (2, 7)]).reg 1 = (regs [(1, 7), (2, 7)]).reg 2 ∧
    (regs [(1, 7), (2, 8)]).reg 1 ≠ (regs [(1, 7), (2, 8)]).reg 2 := by decide

theorem witness_KeySkipsTestTheLowNibble :
    ({ regs [(1, 0x13)] with keypad := 0x0008 } : State).keypad.getLsbD
      ((({ regs [(1, 0x13)] with keypad := 0x0008 } : State).reg 1).toNat % 16) = true ∧
    (regs [(1, 0x13)]).keypad.getLsbD (((regs [(1, 0x13)]).reg 1).toNat % 16) = false := by decide

theorem witness_DecimalDigitsAreStored : MemCanonical { State.reset with i := 0xFFD } ∧
    ({ State.reset with i := 0xFFD } : State).dataAddr 2 ≤ 0xFFF := ⟨by unfold MemCanonical; decide, by decide⟩

theorem witness_RegisterBlockIsStored : MemCanonical { State.reset with i := 0xFF0 } ∧
    ({ State.reset with i := 0xFF0 } : State).dataAddr (15 : Reg).val ≤ 0xFFF ∧
    MemCanonical { State.reset with i := 0xFFF } ∧ ({ State.reset with i := 0xFFF } : State).dataAddr (0 : Reg).val ≤ 0xFFF :=
  ⟨by unfold MemCanonical; decide, by decide, by unfold MemCanonical; decide, by decide⟩

theorem witness_RegisterBlockIsLoaded : ({ State.reset with i := 0xFF0 } : State).dataAddr (15 : Reg).val ≤ 0xFFF ∧
    ({ State.reset with i := 0xFFF } : State).dataAddr (0 : Reg).val ≤ 0xFFF := by decide

theorem witness_AccessAboveMemoryRaisesAddressOutOfRange :
    ({ State.reset with i := 0xFFE } : State).dataAddr 2 > 0xFFF ∧
    ({ State.reset with i := 0xFF1 } : State).dataAddr (15 : Reg).val > 0xFFF ∧
    ({ State.reset with i := 0x1000 } : State).dataAddr (0 : Reg).val > 0xFFF ∧
    ¬SpriteInMemory { State.reset with i := 0xFFF } 0 2 ∧ ¬SpriteInMemory { State.reset with i := 0x1000 } 0 1 :=
  ⟨by decide, by decide, by decide, by unfold SpriteInMemory; decide, by unfold SpriteInMemory; decide⟩

/-- FX55 at 0x3FE that stores V0, V1 at 0x400, where the next instruction is fetched. -/
theorem witness_StoredBytesAreFetched : MemCanonical { regs [(0, 0x6A), (1, 0x12)] with pc := 0x3FE, i := 0x400 } ∧
    ∃ t, exec (.ldMemVx 1) { regs [(0, 0x6A), (1, 0x12)] with pc := 0x3FE, i := 0x400 } = .next t ∧ 0 + 1 ≤ (1 : Reg).val ∧
      t.pc.toNat = ({ regs [(0, 0x6A), (1, 0x12)] with pc := 0x3FE, i := 0x400 } : State).dataAddr 0 :=
  ⟨by unfold MemCanonical; decide, _, rfl, by decide, by decide⟩

/-- The last row of memory, a sprite clipped to it, and N = 0 with I anywhere. -/
theorem witness_DrawXorsSpriteAndReportsCollision : SpriteInMemory { State.reset with i := 0xFFF } 0 1 ∧
    SpriteInMemory { regs [(1, 31)] with i := 0xFFF } 1 15 ∧ SpriteInMemory { State.reset with i := 0xFFFF } 0 0 :=
  ⟨by unfold SpriteInMemory; decide, by unfold SpriteInMemory; decide, by unfold SpriteInMemory; decide⟩

/-- A sprite bit on a lit pixel, and a clear display on which none falls. -/
theorem witness_DrawXorsSpriteAndReportsCollision_flag :
    (∃ cx < 64, ∃ cy < 32, spriteAt (drawing [] [0xC0] 0x80) 0 1 1 cx cy ∧ px (drawing [] [0xC0] 0x80).display cx cy = true) ∧
    ¬∃ cx < 64, ∃ cy < 32, spriteAt State.reset 0 1 1 cx cy ∧ px State.reset.display cx cy = true :=
  ⟨⟨0, by decide, 0, by decide, by unfold spriteAt; decide, by decide⟩, by
    rintro ⟨cx, -, cy, -, -, h⟩
    have : px State.reset.display cx cy = false := by
      simp only [px, State.reset, Vector.getElem?_replicate]; split <;> simp
    simp [this] at h⟩

theorem witness_DrawingTwiceRestoresTheDisplay : (0 : Reg) ≠ VF ∧ (1 : Reg) ≠ VF ∧
    ∃ t, exec (.drw 0 1 1) (drawing [] [0xC0] 0x80) = .next t := ⟨by decide, by decide, _, rfl⟩

set_option maxRecDepth 8000 in
/-- The last pixel of the display turned on by a DXYN, and off by a 00E0. -/
theorem witness_PixelsChangeOnlyInsideTheSprite :
    (∃ t, exec (.drw 0 1 1) (drawing [(0, 63), (1, 31)] [0xFF] 0) = .next t ∧
      px t.display 63 31 ≠ px (drawing [(0, 63), (1, 31)] [0xFF] 0).display 63 31) ∧
    ∃ t, exec .cls (drawing [] [] 0x80) = .next t ∧ px t.display 0 0 ≠ px (drawing [] [] 0x80).display 0 0 :=
  ⟨⟨_, rfl, by decide⟩, _, rfl, by decide⟩

theorem witness_KeyWaitDeliversOrStays : ({ State.reset with latch := .key 0 } : State).latch = .key 0 ∧
    ({ State.reset with latch := .key 15 } : State).latch = .key 15 ∧ State.reset.latch = .none ∧
    ({ State.reset with latch := .wantEvent } : State).latch = .wantEvent := by decide

/-- The reset state with one transaction next. -/
def facing (tr : Transaction) : State := { State.reset with inbox := [tr] }

theorem witness_LatchFollowsItsTransitionTable :
    (facing (.keyUp 3)).inbox = [.keyUp 3] ∧ (facing (.keyUp 3)).latch = .none ∧
    ({ facing (.keyUp 3) with latch := .wantEvent, keypad := 8 } : State).keypad.getLsbD (3 : Key).val = true ∧
    ({ facing (.keyUp 3) with latch := .wantEvent } : State).keypad.getLsbD (3 : Key).val = false ∧
    ({ facing (.keyUp 3) with latch := .wantEvent } : State).latch = .wantEvent ∧
    ({ facing (.keyUp 3) with latch := .key 4 } : State).latch = .key 4 ∧
    (facing (.keyDown 3)).inbox = [.keyDown 3] ∧ (facing .reset).inbox = [.reset] := by decide

theorem witness_TickCountsTimersDownToZero : (facing .tick).inbox = [.tick] := rfl

theorem witness_KeyDownSetsItsBit : (facing (.keyDown 15)).inbox = [.keyDown 15] := rfl

theorem witness_KeyUpClearsItsBitAndCaptures : (facing (.keyUp 0)).inbox = [.keyUp 0] := rfl

theorem witness_ResetDiscardsEverything : (facing .reset).inbox = [.reset] := rfl

theorem witness_LoadCopiesTheImageOrIsRefused :
    (MemCanonical (facing (.load [])) ∧ (facing (.load [])).phase = .reset) ∧
    (facing (.load (List.replicate 3584 0xFF))).inbox = [.load (List.replicate 3584 0xFF)] ∧
    (List.replicate 3584 0xFF#8).length ≤ 3584 ∧ (List.replicate 3585 0xFF#8).length > 3584 ∧
    ({ facing (.load [0x12, 0x00]) with phase := .loaded } : State).phase ≠ .reset ∧
    ({ facing (.load [0x12, 0x00]) with phase := .running } : State).phase ≠ .reset :=
  ⟨⟨rfl, rfl⟩, rfl, by rw [List.length_replicate], by rw [List.length_replicate]; exact Nat.lt_succ_self _, by decide, by decide⟩

theorem witness_DisplayReadReturnsTheBytes : (facing .displayRead).inbox = [.displayRead] ∧
    (facing .tick).inbox = [.tick] ∧ Transaction.tick ≠ .reset ∧ (∀ r, Transaction.tick ≠ .step r) ∧
    ∃ t, step (facing .tick) = .next t := ⟨rfl, rfl, by decide, by simp, _, rfl⟩

/-- An instruction that completes, and one that faults. -/
theorem witness_StepRunsTheDecodedInstruction :
    (StepsWith (ready 0 0x63 0x2A State.reset) 0 (withInbox [] (ready 0 0x63 0x2A State.reset)) ∧
      InstructionAtPc (ready 0 0x63 0x2A State.reset) (.ldImm 3 0x2A) ∧
      ∃ t, exec (.ldImm 3 0x2A) (withRnd 0 (withInbox [] (ready 0 0x63 0x2A State.reset))) = .next t) ∧
    StepsWith (idle 0x00 0xEE State.reset) (Config.hostRandom 0) (countDraw (idle 0x00 0xEE State.reset)) ∧
      InstructionAtPc (idle 0x00 0xEE State.reset) .ret ∧
      exec .ret (withRnd (Config.hostRandom 0) (countDraw (idle 0x00 0xEE State.reset))) = .fault .stackUnderflow :=
  ⟨⟨stepsWith_ready _ _ _ _, ⟨by decide, by decide⟩, _, rfl⟩, stepsWith_idle _ _ _, ⟨by decide, by decide⟩, rfl⟩

theorem witness_FetchFaultsBeforeDecodeFaults :
    StepsWith (facing (.step 0)) 0 (withInbox [] (facing (.step 0))) ∧
    ({ facing (.step 0) with pc := 0xFFF } : State).pc.toNat = 0xFFF ∧
    ({ facing (.step 0) with pc := 0x1000 } : State).pc.toNat > 0xFFF ∧
    ({ facing (.step 0) with pc := 0xFFFF } : State).pc.toNat > 0xFFF ∧
    (ready 0 0xFF 0xFF { State.reset with pc := 0xFFE }).pc.toNat ≤ 0xFFE ∧
    decode ((ready 0 0xFF 0xFF { State.reset with pc := 0xFFE }).mem.read 0xFFE)
      ((ready 0 0xFF 0xFF { State.reset with pc := 0xFFE }).mem.read (0xFFE + 1)) = .error (.unknownOpcode 0xFFFF) :=
  ⟨.inr ⟨[], rfl, rfl⟩, by decide, by decide, by decide, by decide, by decide⟩

/-- Every condition of the list is raised. -/
theorem witness_OnlyListedInstructionsFault :
    exec (.sys 0) State.reset = .fault (.unknownOpcode 0) ∧
    exec (.call 0) { State.reset with sp := 0 } = .fault .stackOverflow ∧ exec .ret State.reset = .fault .stackUnderflow ∧
    exec (.ldB 1) { State.reset with i := 0xFFE } = .fault (.addressOutOfRange 0x1000) ∧
    exec (.ldMemVx 0) { State.reset with i := 0x1000 } = .fault (.addressOutOfRange 0x1000) ∧
    exec (.ldVxMem 1) { State.reset with i := 0xFFF } = .fault (.addressOutOfRange 0x1000) ∧
    exec (.drw 0 1 2) { State.reset with i := 0xFFF } = .fault (.addressOutOfRange 0x1000) :=
  ⟨rfl, rfl, rfl, rfl, rfl, rfl, rfl⟩

/-- The reset state's own STEP faults; a TICK's worth of timer and a key later it is there to fault again. -/
theorem witness_FaultingStepFaultsAgain :
    StepsWith (facing (.step 0)) 0 (withInbox [] (facing (.step 0))) ∧ step (facing (.step 0)) = .fault (.unknownOpcode 0) ∧
    StepsWith { facing (.step 0xFF) with dt := 9, keypad := 1 } 0xFF
      (withInbox [] { facing (.step 0xFF) with dt := 9, keypad := 1 }) ∧
    KeepsRegs [] (facing (.step 0)) { facing (.step 0xFF) with dt := 9, keypad := 1 } ∧
    KeepsStack (facing (.step 0)) { facing (.step 0xFF) with dt := 9, keypad := 1 } :=
  ⟨.inr ⟨[], rfl, rfl⟩, rfl, .inr ⟨[], rfl, rfl⟩, fun _ _ => rfl, rfl, rfl⟩

theorem witness_RedrawIsNeededExactlyForClearAndDraw :
    (∃ t, exec .cls State.reset = .next t) ∧ (∃ t, exec (.drw 0 1 0) State.reset = .next t) ∧
      ∃ t, exec (.jp 0x200) State.reset = .next t := ⟨⟨_, rfl⟩, ⟨_, rfl⟩, _, rfl⟩

theorem witness_SelfJumpIsAFixedPoint :
    StepsWith (idle 0x12 0x00 State.reset) (Config.hostRandom 0) (countDraw (idle 0x12 0x00 State.reset)) ∧
    InstructionAtPc (idle 0x12 0x00 State.reset) (.jp 0x200) ∧ (0x200#12).toNat = (idle 0x12 0x00 State.reset).pc.toNat :=
  ⟨stepsWith_idle _ _ _, ⟨by decide, by decide⟩, by decide⟩

theorem witness_DecodeInvertsEncode : (Instr.sys 0xFFF).wf = true ∧ (Instr.drw 15 0 15).wf = true := by decide

theorem witness_EncodeInvertsDecode : decodeWord 0x0FFF = .ok (.sys 0xFFF) ∧ decodeWord 0xF065 = .ok (.ldVxMem 0) := by decide

theorem witness_DecodeTreeAgreesWithOpcodeMap : decodeWord 0x00E0 = .ok .cls ∧ decodeWord 0x00E1 = .ok (.sys 0x0E1) ∧
    decodeWord 0xFFFF = .error (.unknownOpcode 0xFFFF) := by decide

theorem witness_TransactionsChangeOnlyTheirOwnState :
    (∃ t, step (ready 0 0x60 0x0A State.reset) = .next t) ∧ (∃ t, step (facing .tick) = .next t) ∧
    (∃ t, step (facing (.keyDown 0)) = .next t) ∧ (∃ t, step (facing (.keyUp 15)) = .next t) ∧
    ∃ t, step (facing .displayRead) = .next t := ⟨⟨_, rfl⟩, ⟨_, rfl⟩, ⟨_, rfl⟩, ⟨_, rfl⟩, _, rfl⟩

set_option maxRecDepth 8000 in
/-- Each element is changed by some instruction. -/
theorem witness_StateElementsHaveTheirOwnWriters :
    (∃ t, exec (.ldMemVx 0) { regs [(0, 0xAB)] with i := 0x400 } = .next t ∧ t.mem ≠ []) ∧
    (∃ t, exec (.ldI 0x220) State.reset = .next t ∧ t.i ≠ 0) ∧
    (∃ t, exec (.call 0x240) State.reset = .next t ∧ t.sp ≠ 16) ∧
    (∃ t, exec (.ldDtVx 2) (regs [(2, 1)]) = .next t ∧ t.dt ≠ 0) ∧
    (∃ t, exec (.ldStVx 2) (regs [(2, 1)]) = .next t ∧ t.st ≠ 0) ∧
    (∃ t, exec (.drw 0 1 1) (drawing [] [0xC0] 0) = .next t ∧ t.display[0] ≠ 0) ∧
    ∃ t, exec (.ldVxK 5) State.reset = .next t ∧ t.latch ≠ .none :=
  ⟨⟨_, rfl, by decide⟩, ⟨_, rfl, by decide⟩, ⟨_, rfl, by decide⟩, ⟨_, rfl, by decide⟩, ⟨_, rfl, by decide⟩,
    ⟨_, rfl, by decide⟩, _, rfl, by decide⟩

theorem witness_VFHasTheListedWriters :
    (∃ t, exec (.subReg 1 1) State.reset = .next t ∧ t.reg VF ≠ State.reset.reg VF) ∧
      ∃ t, exec (.ldImm VF 0x2A) State.reset = .next t ∧ t.reg VF ≠ State.reset.reg VF :=
  ⟨⟨_, rfl, by decide⟩, _, rfl, by decide⟩

theorem witness_EveryStepKeepsMemoryCanonical : MemCanonical { facing (.load [0x12, 0x00]) with mem := [(0x300, 1)] } ∧
    ∃ t, step { facing (.load [0x12, 0x00]) with mem := [(0x300, 1)] } = .next t := ⟨rfl, _, rfl⟩

theorem witness_EveryStepKeepsPcBounded : PcBounded (ready 0 0xBF 0xFF (regs [(0, 0xFF)])) ∧
    ∃ t, step (ready 0 0xBF 0xFF (regs [(0, 0xFF)])) = .next t ∧ t.pc.toNat = 0x10FE :=
  ⟨⟨by decide, by intro k hk h; exact absurd (Nat.lt_of_le_of_lt h hk) (by decide)⟩, _, rfl, by decide⟩

/-- A machine that waits at an FX0A, and the release that ends the wait. -/
theorem witness_EveryStepKeepsTheLatchAtItsWait :
    let s : State := { idle 0xF5 0x0A State.reset with keypad := 8, latch := .wantEvent, phase := .running, inbox := [.keyUp 3] }
    LatchWaits s ∧ ∃ t, step s = .next t ∧ t.latch = .key 3 :=
  ⟨⟨fun _ => ⟨5, by decide, by decide⟩, fun h => absurd rfl h⟩, _, rfl, by decide⟩

end Sys2Proof.Tests
end

section
/-! SUPPORT. What each transaction of the host leaves unchanged (10_state.md R36): no instruction writes the keypad, so no
STEP does; TICK, KEY_DOWN, KEY_UP and DISPLAY_READ keep all that a program computes with. -/

namespace Sys2Proof.Machine

/-! ### The keypad is an input of the program -/

/-- No instruction writes the keypad (10_state.md R32). The instructions that always complete give their next state by
computation; the others give it by their inversion lemmas. -/
theorem exec_keeps_keypad {i : Instr} {s t : State} (h : exec i s = .next t) : t.keypad = s.keypad := by
  cases i with
  | sys nnn => cases h
  | ret => obtain ⟨_, rfl⟩ := exec_ret_next h; rfl
  | call nnn => obtain ⟨_, rfl⟩ := exec_call_next h; rfl
  | ldB x => obtain ⟨_, rfl⟩ := exec_ldB_next h; rfl
  | ldMemVx x => obtain ⟨_, rfl⟩ := exec_ldMemVx_next h; rfl
  | ldVxMem x => obtain ⟨_, rfl⟩ := exec_ldVxMem_next h; rfl
  | drw x y n => obtain ⟨_, rfl⟩ := exec_drw_next h; rfl
  | ldVxK x => obtain ⟨_, _, rfl⟩ | ⟨_, rfl⟩ := exec_ldVxK_next h <;> rfl
  | _ => obtain rfl := next_inj h; rfl

/-- A STEP that completes keeps the keypad: neither presenting the random input nor recording the outputs touches it. -/
theorem stepCore_keeps_keypad {r : Byte} {s t : State} (h : stepCore r s = .next t) : t.keypad = s.keypad := by
  obtain ⟨op, u, _, _, hexec, rfl⟩ := stepCore_eq_next.mp h
  rw [recordStep_keypad, exec_keeps_keypad hexec, withRnd_keypad]

theorem step_step_keeps_keypad {r : Byte} {s t : State} {rest : List Transaction} (hin : s.inbox = .step r :: rest)
    (h : step s = .next t) : t.keypad = s.keypad := by
  rw [step_step hin] at h
  rw [stepCore_keeps_keypad h, withInbox_keypad]

/-! ### The transactions that run no instruction -/

/-- Registers, memory, I, `pc`, the call stack and every pixel: all of the machine but timers, keypad and latch. -/
def KeepsProgramState (s t : State) : Prop :=
  KeepsRegs [] s t ∧ KeepsMem s t ∧ t.i = s.i ∧ t.pc = s.pc ∧ KeepsStack s t ∧ KeepsScreen s t

/-- It is enough that the seven fields behind it are equal. -/
theorem keepsProgramState_of_fields {s t : State} (hv : t.v = s.v) (hmem : t.mem = s.mem) (hi : t.i = s.i)
    (hpc : t.pc = s.pc) (hsp : t.sp = s.sp) (hstack : t.stack = s.stack) (hdisplay : t.display = s.display) :
    KeepsProgramState s t :=
  ⟨fun q _ => reg_congr hv q, fun _ => by rw [hmem], hi, hpc, ⟨hsp, hstack⟩, fun _ _ _ _ => by rw [hdisplay]⟩

variable {s t : State} {rest : List Transaction}

/-- TICK changes only DT and ST (44_keypad_timers.md R209). -/
theorem step_tick_frame (hin : s.inbox = .tick :: rest) (h : step s = .next t) :
    KeepsProgramState s t ∧ KeepsKeys s t := by
  obtain rfl := next_inj (step_tick hin ▸ h)
  exact ⟨keepsProgramState_of_fields rfl rfl rfl rfl rfl rfl rfl, rfl, rfl⟩

/-- KEY_DOWN changes only the keypad (44_keypad_timers.md R207). -/
theorem step_keyDown_frame {k : Key} (hin : s.inbox = .keyDown k :: rest) (h : step s = .next t) :
    KeepsProgramState s t ∧ KeepsTimers s t ∧ t.latch = s.latch := by
  obtain rfl := next_inj (step_keyDown hin ▸ h)
  exact ⟨keepsProgramState_of_fields rfl rfl rfl rfl rfl rfl rfl, ⟨rfl, rfl⟩, rfl⟩

/-- KEY_UP changes only the keypad and the latch (44_keypad_timers.md R208). -/
theorem step_keyUp_frame {k : Key} (hin : s.inbox = .keyUp k :: rest) (h : step s = .next t) :
    KeepsProgramState s t ∧ KeepsTimers s t := by
  obtain rfl := next_inj (step_keyUp hin ▸ h)
  exact ⟨keepsProgramState_of_fields rfl rfl rfl rfl rfl rfl rfl, rfl, rfl⟩

/-- DISPLAY_READ changes nothing of the machine (10_state.md R31). -/
theorem step_displayRead_frame (hin : s.inbox = .displayRead :: rest) (h : step s = .next t) :
    KeepsProgramState s t ∧ KeepsTimers s t ∧ KeepsKeys s t := by
  obtain rfl := next_inj (step_displayRead hin ▸ h)
  exact ⟨keepsProgramState_of_fields rfl rfl rfl rfl rfl rfl rfl, ⟨rfl, rfl⟩, rfl, rfl⟩

end Sys2Proof.Machine
end

section
open Sys2Proof Sys2Proof.Machine

/-- Settles O51, clause by clause, from the frame of the transaction each clause names. -/
theorem transactionsChangeOnlyTheirOwnState : Obligations.TransactionsChangeOnlyTheirOwnState := by
  intro s t tr rest hin hstep
  refine ⟨?stepKeypad, ?programState, ?tickKeys, ?keyDownRest, ?keyUpRest, ?displayReadRest⟩
  case stepKeypad =>
    rintro r rfl
    exact step_step_keeps_keypad hin hstep
  case programState =>
    rintro (rfl | ⟨k, rfl⟩ | ⟨k, rfl⟩ | rfl)
    · exact (step_tick_frame hin hstep).1
    · exact (step_keyDown_frame hin hstep).1
    · exact (step_keyUp_frame hin hstep).1
    · exact (step_displayRead_frame hin hstep).1
  case tickKeys =>
    rintro rfl
    exact (step_tick_frame hin hstep).2
  case keyDownRest =>
    rintro k rfl
    exact (step_keyDown_frame hin hstep).2
  case keyUpRest =>
    rintro k rfl
    exact (step_keyUp_frame hin hstep).2
  case displayReadRest =>
    rintro rfl
    exact (step_displayRead_frame hin hstep).2

end

section
/-! SUPPORT. The load, ALU and random instructions (40_load_alu.md): ALU flags as arithmetic, and what an instruction that
is one register write, or one ALU write, followed by the default advance does to the machine. -/

namespace Sys2Proof.Machine

/-! ### Result and flag of each ALU operation as numbers (40_load_alu.md R122) -/

/-- ADD's flag is the carry (R116). -/
theorem aluAdd_flag (a b : Byte) : (aluAdd a b).2 = if a.toNat + b.toNat > 255 then 1#8 else 0#8 := by
  simp only [aluAdd, flagByte, decide_eq_true_eq]

/-- The difference mod 256 is the minuend less the subtrahend, with 256 lent exactly on a borrow (R117, R119). -/
theorem aluSub_toNat_borrow (m k : Byte) :
    (aluSub m k).1.toNat = if m.toNat < k.toNat then m.toNat + 256 - k.toNat else m.toNat - k.toNat := by
  have := m.isLt
  have := k.isLt
  rw [aluSub_toNat]
  split <;> omega

/-- SUB's and SUBN's flag is "no borrow" (R117, R119). -/
theorem aluSub_flag (m k : Byte) : (aluSub m k).2 = if m.toNat < k.toNat then 0#8 else 1#8 := by
  by_cases h : m.toNat < k.toNat <;> simp [aluSub, flagByte, h]

/-- A flag is the byte of its bit's number. -/
theorem flagByte_eq_ofNat (b : Bool) : flagByte b = BitVec.ofNat 8 b.toNat := by cases b <;> rfl

/-- SHR's flag is the LSB, the remainder mod 2 (R118). -/
theorem aluShr_flag (a : Byte) : (aluShr a).2 = BitVec.ofNat 8 (a.toNat % 2) := by
  have hbit : (a.getLsbD 0).toNat = a.toNat % 2 := by rw [BitVec.getLsbD, Nat.toNat_testBit, pow_zero, Nat.div_one]
  rw [aluShr, flagByte_eq_ofNat, hbit]

/-- SHL's flag is the MSB, whether the byte reaches 128 (R120). -/
theorem aluShl_flag (a : Byte) : (aluShl a).2 = BitVec.ofNat 8 (a.toNat / 128) := by
  have hbit : (a.getLsbD 7).toNat = a.toNat / 128 := by
    have := a.isLt
    rw [BitVec.getLsbD, Nat.toNat_testBit]
    omega
  rw [aluShl, flagByte_eq_ofNat, hbit]

/-! ### The frame of an instruction that writes registers only -/

/-- Writing registers and advancing keeps everything else. -/
theorem plainFrame_of_regs (s : State) (v : Vector Byte 16) :
    PlainFrame s { s with v := v, pc := s.pc + 2#16, redraw := false } :=
  ⟨rfl, rfl, fun _ => rfl, rfl, ⟨rfl, rfl⟩, ⟨rfl, rfl⟩, fun _ _ _ _ => rfl, ⟨rfl, rfl⟩, rfl, rfl, rfl, rfl, rfl, rfl⟩

variable {i : Instr} {s : State} {x : Reg}

/-- An instruction that is one register write and the default advance. -/
theorem writesRegister_of_exec {b : Byte} (hexec : exec i s = (s.setReg x b).advance) : WritesRegister i x b s := by
  refine ⟨_, hexec.trans (advance_eq _), ?destination, ?others, plainFrame_of_regs s (s.setReg x b).v⟩
  case destination => exact (reg_setReg s x b x).trans (if_pos rfl)
  case others =>
    intro q hq
    exact (reg_setReg s x b q).trans (if_neg (List.ne_of_not_mem_cons hq))

/-- An instruction that is one ALU write and the default advance: the flag is in VF whatever X is, the result in VX unless
X is F (10_state.md R22). -/
theorem writesResultAndFlag_of_exec {r : Byte × Byte} {result : Nat} {flag : Byte}
    (hexec : exec i s = (s.writeAlu x r).advance) (hresult : r.1.toNat = result) (hflag : r.2 = flag) :
    WritesResultAndFlag i x result flag s := by
  subst hresult hflag
  have hreg : ∀ q, (s.writeAlu x r).reg q = if q = VF then r.2 else if q = x then r.1 else s.reg q := reg_writeAlu s x r
  refine ⟨_, hexec.trans (advance_eq _), ?flag, ?result, ?others, plainFrame_of_regs s (s.writeAlu x r).v⟩
  case flag => exact (hreg VF).trans (if_pos rfl)
  case result =>
    intro hx
    exact congrArg BitVec.toNat ((hreg x).trans (by rw [if_neg hx, if_pos rfl]))
  case others =>
    intro q hq
    obtain ⟨hqx, hqf⟩ : q ≠ x ∧ q ≠ VF := by simpa using hq
    exact (hreg q).trans (by rw [if_neg hqf, if_neg hqx])

/-- Whatever state such an instruction answers, its VF is the flag. -/
theorem reg_VF_of_writesResultAndFlag {result : Nat} {flag : Byte} (h : WritesResultAndFlag i x result flag s) {t : State}
    (ht : exec i s = .next t) : t.reg VF = flag := by
  obtain ⟨u, hu, hflag, -⟩ := h
  obtain rfl := next_inj (hu.symm.trans ht)
  exact hflag

/-- 8XY4 is the ALU write of the sum and its carry (R116). -/
theorem addReg_writesResultAndFlag (x y : Reg) (s : State) :
    WritesResultAndFlag (.addReg x y) x (((s.reg x).toNat + (s.reg y).toNat) % 256)
      (if (s.reg x).toNat + (s.reg y).toNat > 255 then 1#8 else 0#8) s :=
  writesResultAndFlag_of_exec rfl (aluAdd_toNat _ _) (aluAdd_flag _ _)

end Sys2Proof.Machine
end

section
open Sys2Proof Sys2Proof.Machine Sys2Proof.Laws

/-- Settles O4: each of the three is the ALU write of its bitwise result with the flag 0. -/
theorem logicOperationsResetVF : Obligations.LogicOperationsResetVF := fun x y _ =>
  ⟨⟨EncodePattern.orReg x y, writesResultAndFlag_of_exec (r := aluLogic _) rfl rfl rfl⟩,
    ⟨EncodePattern.andReg x y, writesResultAndFlag_of_exec (r := aluLogic _) rfl rfl rfl⟩,
    ⟨EncodePattern.xorReg x y, writesResultAndFlag_of_exec (r := aluLogic _) rfl rfl rfl⟩⟩

/-- Settles O5: the flag is the carry, and the carry has its two readings by `carry_iff_wrapped_lt`. -/
theorem addReportsCarryInVF : Obligations.AddReportsCarryInVF := by
  intro x y s
  refine ⟨EncodePattern.addReg x y, addReg_writesResultAndFlag x y s, fun t ht => ?_⟩
  have hflag := reg_VF_of_writesResultAndFlag (addReg_writesResultAndFlag x y s) ht
  rw [hflag, ← carry_iff_wrapped_lt]
  simp

/-- Settles O6: both are the subtraction, with VX the minuend of 8XY5 and VY the minuend of 8XY7. -/
theorem subtractReportsNoBorrowInVF : Obligations.SubtractReportsNoBorrowInVF := fun x y s =>
  ⟨⟨EncodePattern.subReg x y,
      writesResultAndFlag_of_exec rfl (aluSub_toNat_borrow (s.reg x) (s.reg y)) (aluSub_flag _ _)⟩,
    ⟨EncodePattern.subn x y,
      writesResultAndFlag_of_exec rfl (aluSub_toNat_borrow (s.reg y) (s.reg x)) (aluSub_flag _ _)⟩⟩

/-- Settles O7: both shift the old VY, whichever register X is. -/
theorem shiftsTakeVYAsSource : Obligations.ShiftsTakeVYAsSource := fun x y s =>
  ⟨⟨EncodePattern.shr x y, writesResultAndFlag_of_exec rfl (aluShr_toNat (s.reg y)) (aluShr_flag _)⟩,
    ⟨EncodePattern.shl x y, writesResultAndFlag_of_exec rfl (aluShl_toNat (s.reg y)) (aluShl_flag _)⟩⟩

/-- Settles O1: 6XNN is one register write. -/
theorem loadImmediateSetsVX : Obligations.LoadImmediateSetsVX := fun x nn _ =>
  ⟨EncodePattern.ldImm x nn, writesRegister_of_exec rfl⟩

/-- Settles O2: 7XNN is one register write, so VF changes only as its destination; narrowing the sum to a byte is
reducing it mod 256. -/
theorem addImmediateWrapsWithoutFlag : Obligations.AddImmediateWrapsWithoutFlag := by
  intro x nn s
  have hwrap : aluAddImm (s.reg x) nn = BitVec.ofNat 8 (((s.reg x).toNat + nn.toNat) % 256) := by
    apply BitVec.eq_of_toNat_eq
    simp [aluAddImm]
  exact ⟨EncodePattern.addImm x nn, hwrap ▸ writesRegister_of_exec rfl⟩

/-- Settles O3: 8XY0 is one register write. -/
theorem copyRegisterKeepsVF : Obligations.CopyRegisterKeepsVF := fun x y _ =>
  ⟨EncodePattern.ldReg x y, writesRegister_of_exec rfl⟩

/-- Settles O8: CXNN is one register write, of the masked random input its STEP presents. -/
theorem randomIsMaskedInput : Obligations.RandomIsMaskedInput := fun x nn _ _ =>
  ⟨EncodePattern.rnd x nn, writesRegister_of_exec rfl⟩

end

section
/-! SUPPORT. Control transfer (41_control_flow.md): an instruction that only commits a `new_pc`, a conditional skip, and
what 00EE and 2NNN leave unchanged beside the call stack. -/

namespace Sys2Proof.Machine

/-- A jump target as a number widened to 16 bits. -/
theorem zext12_eq_ofNat (nnn : BitVec 12) : zext12 nnn = BitVec.ofNat 16 nnn.toNat := (BitVec.ofNat_toNat 16 nnn).symm

/-! ### Frames -/

/-- Everything but the call stack, `pc` and `redraw_needed`. -/
def KeepsAllButStack (s t : State) : Prop :=
  KeepsRegs [] s t ∧ KeepsMem s t ∧ t.i = s.i ∧ KeepsTimers s t ∧ KeepsScreen s t ∧ KeepsKeys s t ∧ KeepsHost s t

/-- Writing the call stack and committing a `pc` keeps everything else. -/
theorem keepsAllButStack_of_stackWrite (s : State) (sp : Fin 17) (stack : Vector Word 16) (pc : Word) :
    KeepsAllButStack s { s with sp := sp, stack := stack, pc := pc, redraw := false } :=
  ⟨fun _ _ => rfl, fun _ => rfl, rfl, ⟨rfl, rfl⟩, fun _ _ _ _ => rfl, ⟨rfl, rfl⟩, rfl, rfl, rfl, rfl, rfl, rfl⟩

/-- The two frames differ in the stack and the registers only. -/
theorem keepsAllButRegs_of_keepsStack {s t : State} (h : KeepsAllButStack s t) (hstack : KeepsStack s t) :
    KeepsAllButRegs s t :=
  have ⟨_, hmem, hi, hrest⟩ := h
  ⟨hmem, hi, hstack, hrest⟩

/-! ### Committing a `new_pc` and skipping -/

variable {i : Instr} {s : State}

/-- An instruction that is one commit of `new_pc`. -/
theorem onlySetsPc_of_exec {p : Word} (hexec : exec i s = s.finish p) : OnlySetsPc i p s := by
  have hframe : KeepsAllButStack s { s with pc := p, redraw := false } :=
    keepsAllButStack_of_stackWrite s s.sp s.stack p
  exact ⟨_, hexec.trans (finish_eq s p), rfl, rfl, hframe.1, keepsAllButRegs_of_keepsStack hframe ⟨rfl, rfl⟩⟩

/-- An instruction that is one skip on a test `b` that decides `c` (R150). -/
theorem skipsIf_of_exec {b : Bool} {c : Prop} (hexec : exec i s = s.skipIf b) (htest : b = true ↔ c) : SkipsIf i c s := by
  refine ⟨fun hc => onlySetsPc_of_exec ?taken, fun hc => onlySetsPc_of_exec ?notTaken⟩
  case taken => rw [hexec, State.skipIf, if_pos (htest.mpr hc)]
  case notTaken => rw [hexec, State.skipIf, if_neg (mt htest.mp hc)]

end Sys2Proof.Machine
end

section
open Sys2Proof Sys2Proof.Machine Sys2Proof.Laws

/-- Settles O12: `sp` below 16 and `sp` = 16 are the two outcomes of the pop. -/
theorem returnResumesAfterTheCall : Obligations.ReturnResumesAfterTheCall := by
  intro s
  refine ⟨EncodePattern.ret, fun hsp => ?popped, fun hempty => exec_ret_empty (by omega)⟩
  case popped => exact ⟨_, exec_ret_ok hsp, rfl, rfl, rfl, rfl, keepsAllButStack_of_stackWrite ..⟩

/-- Settles O13: `sp` above 0 and `sp` = 0 are the two outcomes of the push, which writes the slot `sp - 1` and no other. -/
theorem callPushesItsOwnAddress : Obligations.CallPushesItsOwnAddress := by
  intro nnn s
  refine ⟨EncodePattern.call nnn, fun hsp => ?pushed, exec_call_full nnn⟩
  case pushed =>
    refine ⟨_, exec_call_ok nnn hsp, zext12_toNat nnn, Nat.sub_add_cancel hsp, fun k hk => ?slot, rfl,
      keepsAllButStack_of_stackWrite ..⟩
    case slot => simp only [Vector.getElem_set, eq_comm]

/-- Settles O17: each of the four is a skip on its own comparison. -/
theorem comparisonsSkipOneInstruction : Obligations.ComparisonsSkipOneInstruction := fun x y nn _ =>
  ⟨⟨EncodePattern.seImm x nn, skipsIf_of_exec rfl beq_iff_eq⟩,
    ⟨EncodePattern.sneImm x nn, skipsIf_of_exec rfl bne_iff_ne⟩,
    ⟨EncodePattern.seReg x y, skipsIf_of_exec rfl beq_iff_eq⟩,
    ⟨EncodePattern.sneReg x y, skipsIf_of_exec rfl bne_iff_ne⟩⟩

/-- Settles O15: 1NNN is one commit of `new_pc`, the zero-extended NNN. -/
theorem jumpSetsPc : Obligations.JumpSetsPc := fun nnn _ =>
  ⟨EncodePattern.jp nnn, zext12_eq_ofNat nnn ▸ onlySetsPc_of_exec rfl⟩

end

section
/-! SUPPORT. Index register and memory (42_index_memory.md): what an instruction that is one write of I followed by the
default advance does to the machine. -/

namespace Sys2Proof.Machine

/-- An instruction that is one write of I and the default advance. -/
theorem writesIndex_of_exec {i : Instr} {s : State} {w : Word} {a : Nat} (hexec : exec i s = (s.setI w).advance)
    (hindex : w.toNat = a) : WritesIndex i a s := by
  refine ⟨_, hexec.trans (advance_eq _), ?index, rfl, rfl, ?registers, ?memory, ⟨rfl, rfl⟩, ⟨rfl, rfl⟩, ?screen, ⟨rfl, rfl⟩,
    ?host⟩
  case index => exact (congrArg BitVec.toNat (setI_i s w)).trans hindex
  case registers => exact fun q _ => reg_congr (setI_v s w) q
  case memory => exact fun _ => by rw [setI_mem]
  case screen => exact fun _ _ _ _ => by rw [setI_display]
  case host => exact ⟨rfl, rfl, rfl, rfl, rfl, rfl⟩

end Sys2Proof.Machine
end

section
open Sys2Proof Sys2Proof.Machine Sys2Proof.Laws

/-- Settles O18: ANNN is one write of I, and zero-extension keeps NNN's number. -/
theorem loadIndexSetsI : Obligations.LoadIndexSetsI := fun nnn _ =>
  ⟨EncodePattern.ldI nnn, writesIndex_of_exec rfl (zext12_toNat nnn)⟩

end

section
/-! SUPPORT. Drawing one sprite twice (43_display.md R183): a second XOR undoes the first, and DXYN leaves unchanged
everything it reads but the display, unless X or Y is F. -/

namespace Sys2Proof.Machine

/-! ### The compositor, twice on the same rows -/

/-- A pixel lit after an XOR with `bit` was turned on by it exactly when it was unlit before. -/
theorem bit_and_lit_iff_unlit_and_lit (old bit : Bool) :
    bit = true ∧ (old ^^ bit) = true ↔ old = false ∧ (old ^^ bit) = true := by
  cases old <;> cases bit <;> decide

section
variable (d : Display) (bs : List Byte) (x0 : Nat) {y0 : Nat} (hrows : y0 + bs.length ≤ 32)
include hrows

/-- Every pixel is XORed twice with the same sprite bit. -/
theorem blit_blit_display : (blit (blit d bs x0 y0).1 bs x0 y0).1 = d := by
  refine display_ext fun cx hx cy hy => ?_
  rw [px_blit _ bs x0 hrows hx hy, px_blit d bs x0 hrows hx hy, Bool.xor_assoc, Bool.xor_self, Bool.xor_false]

/-- The second draw collides iff the first turned a pixel on: a sprite bit falls on a pixel lit after the first draw exactly
when that pixel was unlit before it. -/
theorem blit_blit_flag : (blit (blit d bs x0 y0).1 bs x0 y0).2 = true ↔
    ∃ cx < 64, ∃ cy < 32, px d cx cy = false ∧ px (blit d bs x0 y0).1 cx cy = true := by
  rw [blit_flag _ bs x0 hrows]
  refine exists_congr fun cx => and_congr_right fun hx => exists_congr fun cy => and_congr_right fun hy => ?pixel
  case pixel =>
    rw [px_blit d bs x0 hrows hx hy]
    exact bit_and_lit_iff_unlit_and_lit _ _

end

/-! ### The state a completed DXYN leaves -/

section
variable (x y : Reg) (n : BitVec 4) (s : State)

theorem drawnState_display : (drawnState x y n s).display =
    (blit s.display (drawnBytes s y n) (startColumn (s.reg x)) (startRow (s.reg y))).1 := rfl

/-- VF is the collision flag. -/
theorem reg_VF_drawnState : (drawnState x y n s).reg VF =
    flagByte (blit s.display (drawnBytes s y n) (startColumn (s.reg x)) (startRow (s.reg y))).2 :=
  (reg_setReg _ VF _ VF).trans (if_pos rfl)

theorem reg_drawnState {q : Reg} (hq : q ≠ VF) : (drawnState x y n s).reg q = s.reg q :=
  (reg_setReg _ VF _ q).trans (if_neg hq)

/-- DXYN writes neither memory nor I, so with VY kept it leaves the sprite where it was. -/
theorem drawnBytes_drawnState (hy : y ≠ VF) : drawnBytes (drawnState x y n s) y n = drawnBytes s y n := by
  simp only [drawnBytes, reg_drawnState x y n s hy]
  rfl

theorem spriteInMemory_drawnState (hy : y ≠ VF) : SpriteInMemory (drawnState x y n s) y n ↔ SpriteInMemory s y n := by
  simp only [SpriteInMemory, reg_drawnState x y n s hy]
  rfl

/-- The rows DXYN draws end at the bottom edge. -/
theorem startRow_add_drawnBytes_length : startRow (s.reg y) + (drawnBytes s y n).length ≤ 32 :=
  drawnBytes_length s y n ▸ startRow_add_drawnRows n (s.reg y)

end

end Sys2Proof.Machine
end

section
open Sys2Proof Sys2Proof.Machine

/-- Settles O28: X and Y not being F, the second DXYN is the same blit as the first, so it has its two properties. -/
theorem drawingTwiceRestoresTheDisplay : Obligations.DrawingTwiceRestoresTheDisplay := by
  intro x y n s t hx hy hexec
  obtain ⟨hsprite, rfl⟩ := exec_drw_next hexec
  have hrows := startRow_add_drawnBytes_length y n s
  refine ⟨_, exec_drw_ok x y n ((spriteInMemory_drawnState x y n s hy).mpr hsprite), ?display, ?flag⟩
  case display =>
    rw [drawnState_display, drawnBytes_drawnState x y n s hy, reg_drawnState x y n s hx, reg_drawnState x y n s hy]
    exact blit_blit_display s.display _ _ hrows
  case flag =>
    rw [reg_VF_drawnState, flagByte_eq_one, drawnBytes_drawnState x y n s hy, reg_drawnState x y n s hx,
      reg_drawnState x y n s hy]
    exact blit_blit_flag s.display _ _ hrows

end

section
/-! SUPPORT. Keypad and timers (44_keypad_timers.md): what an instruction that writes DT or ST, and what FX0A, leave
unchanged; a delivered key code as a number; the keypad bit KEY_DOWN sets. -/

namespace Sys2Proof.Machine

/-! ### Frames -/

/-- The default advance, with everything but DT and ST unchanged. -/
def TimerFrame (s t : State) : Prop :=
  t.pc = s.pc + 2#16 ∧ t.redraw = false ∧ KeepsRegs [] s t ∧ KeepsMem s t ∧ t.i = s.i ∧ KeepsStack s t ∧
    KeepsScreen s t ∧ KeepsKeys s t ∧ KeepsHost s t

/-- Writing the timers and advancing keeps everything else. -/
theorem timerFrame_of_timerWrite (s : State) (dt st : Byte) :
    TimerFrame s { s with dt := dt, st := st, pc := s.pc + 2#16, redraw := false } :=
  ⟨rfl, rfl, fun _ _ => rfl, fun _ => rfl, rfl, ⟨rfl, rfl⟩, fun _ _ _ _ => rfl, ⟨rfl, rfl⟩, rfl, rfl, rfl, rfl, rfl, rfl⟩

/-- Everything FX0A never writes: all but the registers, the keypad and the latch, `pc` and `redraw_needed`. -/
def KeepsAllButRegsAndKeys (s t : State) : Prop :=
  KeepsMem s t ∧ t.i = s.i ∧ KeepsStack s t ∧ KeepsTimers s t ∧ KeepsScreen s t ∧ KeepsHost s t

/-- Writing registers and the latch and committing a `pc` keeps everything else. -/
theorem keepsAllButRegsAndKeys_of_latchWrite (s : State) (v : Vector Byte 16) (latch : Latch) (pc : Word) :
    KeepsAllButRegsAndKeys s { s with v := v, latch := latch, pc := pc, redraw := false } :=
  ⟨fun _ => rfl, rfl, ⟨rfl, rfl⟩, ⟨rfl, rfl⟩, fun _ _ _ _ => rfl, rfl, rfl, rfl, rfl, rfl, rfl⟩

/-! ### Keys -/

/-- A key code fits a register (R204). -/
theorem keyByte_toNat (k : Key) : (keyByte k).toNat = k.val := by
  have := k.isLt
  rw [keyByte, BitVec.toNat_ofNat]
  omega

/-- KEY_DOWN sets its own bit of the keypad and keeps every other (R207). -/
theorem keyDown_keypad_bit (k j : Key) (s : State) :
    (keyDown k s).keypad.getLsbD j.val = (decide (j = k) || s.keypad.getLsbD j.val) := by
  rw [keyDown_keypad, BitVec.getLsbD_or, keyMask_bit, Bool.or_comm]

end Sys2Proof.Machine
end

section
open Sys2Proof Sys2Proof.Machine Sys2Proof.Laws

/-- Settles O31: FX07 is one register write, of DT; FX15 and FX18 are each one timer write, of VX. -/
theorem timerInstructionsCopyDirectly : Obligations.TimerInstructionsCopyDirectly := fun x s =>
  ⟨⟨EncodePattern.ldVxDt x, writesRegister_of_exec rfl⟩,
    ⟨EncodePattern.ldDtVx x, _, advance_eq _, rfl, rfl, timerFrame_of_timerWrite s (s.reg x) s.st⟩,
    ⟨EncodePattern.ldStVx x, _, advance_eq _, rfl, rfl, timerFrame_of_timerWrite s s.dt (s.reg x)⟩⟩

/-- Settles O32: a code in the latch is delivered by one register write; without one FX0A writes the latch only. -/
theorem keyWaitDeliversOrStays : Obligations.KeyWaitDeliversOrStays := by
  intro x s
  refine ⟨EncodePattern.ldVxK x, fun k hlatch => ?delivered, fun hlatch => ?waiting⟩
  case delivered =>
    have hreg : ∀ q, (s.setReg x (keyByte k)).reg q = if q = x then keyByte k else s.reg q := reg_setReg s x (keyByte k)
    refine ⟨_, exec_ldVxK_key x hlatch, ?code, rfl, rfl, rfl, rfl, ?others, keepsAllButRegsAndKeys_of_latchWrite ..⟩
    case code => exact (congrArg BitVec.toNat ((hreg x).trans (if_pos rfl))).trans (keyByte_toNat k)
    case others => exact fun q hq => (hreg q).trans (if_neg (List.ne_of_not_mem_cons hq))
  case waiting =>
    exact ⟨_, exec_ldVxK_wait x hlatch, rfl, rfl, rfl, rfl, fun _ _ => rfl,
      keepsAllButRegsAndKeys_of_latchWrite s s.v .wantEvent s.pc⟩

/-- Settles O34: both timers are counted down by `countDown`, which subtracts 1 down to 0; the rest is TICK's frame. -/
theorem tickCountsTimersDownToZero : Obligations.TickCountsTimersDownToZero := by
  intro s rest hin
  have hstep := step_tick hin
  obtain ⟨⟨hregs, hmem, hi, hpc, hstack, hscreen⟩, hkeys⟩ := step_tick_frame hin hstep
  exact ⟨_, hstep, countDown_toNat s.dt, countDown_toNat s.st, hregs, hmem, hi, hpc, hstack, hscreen, hkeys, rfl⟩

/-- Settles O35: the keypad gains key k's mask, which is bit k alone; the rest is KEY_DOWN's frame. -/
theorem keyDownSetsItsBit : Obligations.KeyDownSetsItsBit := by
  intro s k rest hin
  have hstep := step_keyDown hin
  obtain ⟨⟨hregs, hmem, hi, hpc, hstack, hscreen⟩, htimers, hlatch⟩ := step_keyDown_frame hin hstep
  exact ⟨_, hstep, fun j => keyDown_keypad_bit k j (withInbox rest s), hlatch, hregs, hmem, hi, hpc, hstack, htimers,
    hscreen, rfl⟩

end

section
/-! SUPPORT. Decoding (30_encoding.md): each group of the decode tree against the formats of R81, in both directions, and
against the rows of the opcode map that have the group's first nibble. -/

namespace Sys2Proof

/-! ### Decoding an encoded word -/

/-- The group the tree leaves to its last branch (R83, R89). -/
theorem decodeWord_eq_decodeGroupF {w : Word} (hg : fieldGroup w = 0xF#4) : decodeWord w = decodeGroupF w := by
  unfold decodeWord
  rw [hg]
  rfl

/-- The words of SYS are not those of CLS and RET, since its operand is neither 0x0E0 nor 0x0EE (R84). -/
theorem decodeGroup0_encNNN {nnn : BitVec 12} (h : sysOperandOk nnn = true) :
    decodeGroup0 (encNNN 0x0#4 nnn) = .ok (.sys nnn) := by
  obtain ⟨hcls, hret⟩ : nnn ≠ 0x0E0#12 ∧ nnn ≠ 0x0EE#12 := by simpa [sysOperandOk] using h
  have notCls : encNNN 0x0#4 nnn ≠ 0x00E0#16 := fun heq => hcls (fieldNNN_encNNN 0x0#4 nnn ▸ congrArg fieldNNN heq)
  have notRet : encNNN 0x0#4 nnn ≠ 0x00EE#16 := fun heq => hret (fieldNNN_encNNN 0x0#4 nnn ▸ congrArg fieldNNN heq)
  rw [decodeGroup0, if_neg notCls, if_neg notRet, fieldNNN_encNNN]

/-- The decoder reads back the fields the encoder wrote, in every row of the opcode map (R82, R90). -/
theorem decodeWord_encode {i : Instr} (h : i.wf = true) : decodeWord (encode i) = .ok i := by
  cases i with
  | cls | ret => decide
  | sys nnn => simpa only [encode, decodeWord, fieldGroup_encNNN] using decodeGroup0_encNNN h
  | jp | call | ldI | jpV0 => simp only [encode, decodeWord, fieldGroup_encNNN, fieldNNN_encNNN]
  | seImm | sneImm | ldImm | addImm | rnd =>
    simp only [encode, decodeWord, fieldGroup_encXNN, fieldX_encXNN, fieldNN_encXNN]
  | drw => simp only [encode, decodeWord, fieldGroup_encXYN, fieldX_encXYN, fieldY_encXYN, fieldN_encXYN]
  | seReg | sneReg =>
    simp only [encode, decodeWord, decodeGroup5, decodeGroup9, fieldGroup_encXYN, fieldX_encXYN, fieldY_encXYN,
      fieldN_encXYN, if_true]
  | ldReg | orReg | andReg | xorReg | addReg | subReg | shr | subn | shl =>
    simp only [encode, decodeWord, decodeGroup8, fieldGroup_encXYN, fieldX_encXYN, fieldY_encXYN, fieldN_encXYN]
  | skp | sknp => simp only [encode, decodeWord, decodeGroupE, fieldGroup_encXNN, fieldX_encXNN, fieldNN_encXNN]
  | ldVxDt | ldVxK | ldDtVx | ldStVx | addI | ldF | ldB | ldMemVx | ldVxMem =>
    simp only [encode, decodeWord_eq_decodeGroupF (fieldGroup_encXNN _ _ _), decodeGroupF, fieldX_encXNN, fieldNN_encXNN]

/-! ### Encoding a decoded word -/

section
variable {w : Word} {g : BitVec 4} (hg : fieldGroup w = g)
include hg

/-- A word is its group and its NNN. -/
theorem encNNN_of_fields : encNNN g (fieldNNN w) = w := hg ▸ encNNN_fields w

/-- A word is its group, its X and its low byte. -/
theorem encXNN_of_fields {nn : Byte} (hn : fieldNN w = nn) : encXNN g (fieldX w) nn = w := hg ▸ hn ▸ encXNN_fields w

/-- A word is its group, its X, its Y and its low nibble. -/
theorem encXYN_of_fields {n : BitVec 4} (hn : fieldN w = n) : encXYN g (fieldX w) (fieldY w) n = w :=
  hg ▸ hn ▸ encXYN_fields w

end

/-- The instruction is one a decoder can give, and its word is `w`. -/
def IsWordOf (w : Word) (i : Instr) : Prop := i.wf = true ∧ encode i = w

theorem isWordOf_of_decodeGroup0 {w : Word} {i : Instr} (hg : fieldGroup w = 0x0#4) (h : decodeGroup0 w = .ok i) :
    IsWordOf w i := by
  have hw : encNNN 0x0#4 (fieldNNN w) = w := encNNN_of_fields hg
  unfold decodeGroup0 at h
  split at h
  · cases h; exact ⟨rfl, Eq.symm ‹_›⟩
  split at h
  · cases h; exact ⟨rfl, Eq.symm ‹_›⟩
  · rename_i notCls notRet
    cases h
    have hcls : fieldNNN w ≠ 0x0E0#12 := fun hf => notCls (by rw [← hw, hf]; rfl)
    have hret : fieldNNN w ≠ 0x0EE#12 := fun hf => notRet (by rw [← hw, hf]; rfl)
    exact ⟨by simp [Instr.wf, sysOperandOk, hcls, hret], hw⟩

theorem isWordOf_of_decodeGroup5 {w : Word} {i : Instr} (hg : fieldGroup w = 0x5#4) (h : decodeGroup5 w = .ok i) :
    IsWordOf w i := by
  unfold decodeGroup5 at h
  split at h <;> cases h
  exact ⟨rfl, encXYN_of_fields hg ‹_›⟩

theorem isWordOf_of_decodeGroup8 {w : Word} {i : Instr} (hg : fieldGroup w = 0x8#4) (h : decodeGroup8 w = .ok i) :
    IsWordOf w i := by
  unfold decodeGroup8 at h
  split at h <;> cases h <;> exact ⟨rfl, encXYN_of_fields hg ‹_›⟩

theorem isWordOf_of_decodeGroup9 {w : Word} {i : Instr} (hg : fieldGroup w = 0x9#4) (h : decodeGroup9 w = .ok i) :
    IsWordOf w i := by
  unfold decodeGroup9 at h
  split at h <;> cases h
  exact ⟨rfl, encXYN_of_fields hg ‹_›⟩

theorem isWordOf_of_decodeGroupE {w : Word} {i : Instr} (hg : fieldGroup w = 0xE#4) (h : decodeGroupE w = .ok i) :
    IsWordOf w i := by
  unfold decodeGroupE at h
  split at h <;> cases h <;> exact ⟨rfl, encXNN_of_fields hg ‹_›⟩

theorem isWordOf_of_decodeGroupF {w : Word} {i : Instr} (hg : fieldGroup w = 0xF#4) (h : decodeGroupF w = .ok i) :
    IsWordOf w i := by
  unfold decodeGroupF at h
  split at h <;> cases h <;> exact ⟨rfl, encXNN_of_fields hg ‹_›⟩

/-! ### The first level of the tree -/

/-- What the first level gives, group by group (R83): a format that the group alone decides, or the group's own subtree. -/
inductive FirstLevel (w : Word) : Except DecodeError Instr → Prop where
  | group0 (hg : fieldGroup w = 0x0#4) : FirstLevel w (decodeGroup0 w)
  | jp (hg : fieldGroup w = 0x1#4) : FirstLevel w (.ok (.jp (fieldNNN w)))
  | call (hg : fieldGroup w = 0x2#4) : FirstLevel w (.ok (.call (fieldNNN w)))
  | seImm (hg : fieldGroup w = 0x3#4) : FirstLevel w (.ok (.seImm (fieldX w) (fieldNN w)))
  | sneImm (hg : fieldGroup w = 0x4#4) : FirstLevel w (.ok (.sneImm (fieldX w) (fieldNN w)))
  | group5 (hg : fieldGroup w = 0x5#4) : FirstLevel w (decodeGroup5 w)
  | ldImm (hg : fieldGroup w = 0x6#4) : FirstLevel w (.ok (.ldImm (fieldX w) (fieldNN w)))
  | addImm (hg : fieldGroup w = 0x7#4) : FirstLevel w (.ok (.addImm (fieldX w) (fieldNN w)))
  | group8 (hg : fieldGroup w = 0x8#4) : FirstLevel w (decodeGroup8 w)
  | group9 (hg : fieldGroup w = 0x9#4) : FirstLevel w (decodeGroup9 w)
  | ldI (hg : fieldGroup w = 0xA#4) : FirstLevel w (.ok (.ldI (fieldNNN w)))
  | jpV0 (hg : fieldGroup w = 0xB#4) : FirstLevel w (.ok (.jpV0 (fieldNNN w)))
  | rnd (hg : fieldGroup w = 0xC#4) : FirstLevel w (.ok (.rnd (fieldX w) (fieldNN w)))
  | drw (hg : fieldGroup w = 0xD#4) : FirstLevel w (.ok (.drw (fieldX w) (fieldY w) (fieldN w)))
  | groupE (hg : fieldGroup w = 0xE#4) : FirstLevel w (decodeGroupE w)
  | groupF (hg : fieldGroup w = 0xF#4) : FirstLevel w (decodeGroupF w)

theorem firstLevel_decodeWord (w : Word) : FirstLevel w (decodeWord w) := by
  by_cases hF : fieldGroup w = 0xF#4
  · exact decodeWord_eq_decodeGroupF hF ▸ .groupF hF
  unfold decodeWord
  split
  any_goals (constructor; assumption)
  have notF : False := by
    have := (fieldGroup w).isLt
    simp only [imp_false] at *
    bv_omega
  exact notF.elim

/-! ### Each decoded word is its instruction's -/

/-- What the decoder gives is well-formed and encodes to the word (R91). -/
theorem isWordOf_of_decodeWord {w : Word} {i : Instr} (h : decodeWord w = .ok i) : IsWordOf w i := by
  have hfirst := firstLevel_decodeWord w
  generalize decodeWord w = d at h hfirst
  cases hfirst with
  | group0 hg => exact isWordOf_of_decodeGroup0 hg h
  | group5 hg => exact isWordOf_of_decodeGroup5 hg h
  | group8 hg => exact isWordOf_of_decodeGroup8 hg h
  | group9 hg => exact isWordOf_of_decodeGroup9 hg h
  | groupE hg => exact isWordOf_of_decodeGroupE hg h
  | groupF hg => exact isWordOf_of_decodeGroupF hg h
  | jp hg | call hg | ldI hg | jpV0 hg => cases h; exact ⟨rfl, encNNN_of_fields hg⟩
  | seImm hg | sneImm hg | ldImm hg | addImm hg | rnd hg => cases h; exact ⟨rfl, encXNN_of_fields hg rfl⟩
  | drw hg => cases h; exact ⟨rfl, encXYN_of_fields hg rfl⟩

/-! ### The rows of the opcode map -/

/-- Every instruction's row is in the map (R90). -/
theorem pattern_mem_opcodeMap (i : Instr) : i.pattern ∈ opcodeMap := by cases i <;> simp [Instr.pattern, opcodeMap]

open Laws.EncodePattern in
/-- The row of an instruction matches its word. -/
theorem rowMatches_pattern (i : Instr) : rowMatches (encode i) i.pattern = true := by
  refine beq_iff_eq.mpr (?_ : Statement i)
  cases i with
  | cls | ret => rfl
  | sys | jp | call | ldI | jpV0 => exact encNNN_fixed _ _
  | seImm | sneImm | ldImm | addImm | rnd => exact encXNN_group _ _ _
  | skp | sknp | ldVxDt | ldVxK | ldDtVx | ldStVx | addI | ldF | ldB | ldMemVx | ldVxMem => exact encXNN_low _ _ _
  | drw => exact encXYN_group _ _ _ _
  | seReg | sneReg | ldReg | orReg | andReg | xorReg | addReg | subReg | shr | subn | shl => exact encXYN_low _ _ _ _

/-- A property of a row that holds of each of the 35 (30_encoding.md R90). -/
theorem forall_mem_opcodeMap {P : Word × Word → Prop} [DecidablePred P] (h : opcodeMap.all (fun row => decide (P row)) = true)
    {row : Word × Word} (hrow : row ∈ opcodeMap) : P row :=
  of_decide_eq_true (List.all_eq_true.mp h row hrow)

/-- The rows of CLS and RET, which fix the whole word, match those two words only. -/
theorem eq_of_rowMatches_wholeWord {w : Word} {row : Word × Word} (hrow : row ∈ opcodeMap) (hmask : row.1 = 0xFFFF#16)
    (hw : rowMatches w row = true) : w = 0x00E0#16 ∨ w = 0x00EE#16 := by
  have hfixed := forall_mem_opcodeMap
    (P := fun row => row.1 = 0xFFFF#16 → row.2 = 0x00E0#16 ∨ row.2 = 0x00EE#16) (by decide) hrow hmask
  have hword : w = row.2 := by
    rw [← beq_iff_eq.mp hw, hmask]
    exact (BitVec.and_allOnes (x := w)).symm
  exact hword ▸ hfixed

/-- Some bit that both masks look at is fixed differently by the two rows. -/
def rowsConflict (p q : Word × Word) : Bool := p.2 &&& q.1 != q.2 &&& p.1

/-- Rows that match one word do not conflict. -/
theorem rowsConflict_eq_false {w : Word} {p q : Word × Word} (hp : rowMatches w p = true) (hq : rowMatches w q = true) :
    rowsConflict p q = false := by
  rw [rowsConflict, bne_eq_false_iff_eq, ← beq_iff_eq.mp hp, ← beq_iff_eq.mp hq, BitVec.and_assoc, BitVec.and_assoc,
    BitVec.and_comm p.1]

/-- Any two rows conflict, but for CLS and RET, whose words SYS's row matches too (R84). -/
theorem opcodeMap_rowsConflict : opcodeMap.all (fun p => opcodeMap.all fun q =>
    rowsConflict p q || p == q || p.1 == 0xFFFF#16 || q.1 == 0xFFFF#16) = true := by decide

/-- A word other than those of CLS and RET matches one row at most. -/
theorem row_unique {w : Word} {p q : Word × Word} (hp : p ∈ opcodeMap) (hq : q ∈ opcodeMap) (hwp : rowMatches w p = true)
    (hwq : rowMatches w q = true) (hcls : w ≠ 0x00E0#16) (hret : w ≠ 0x00EE#16) : p = q := by
  have notWhole : ∀ row ∈ opcodeMap, rowMatches w row = true → row.1 ≠ 0xFFFF#16 := fun row hrow hw hmask =>
    (eq_of_rowMatches_wholeWord hrow hmask hw).elim hcls hret
  have hpq := List.all_eq_true.mp (List.all_eq_true.mp opcodeMap_rowsConflict p hp) q hq
  simpa [rowsConflict_eq_false hwp hwq, notWhole p hp hwp, notWhole q hq hwq] using hpq

/-- Where the decoder gives an instruction, its row is the first that matches (R90). -/
theorem opcodeRow_of_decodeWord {w : Word} {i : Instr} (h : decodeWord w = .ok i) : opcodeRow w = some i.pattern := by
  by_cases hcls : w = 0x00E0#16
  · subst hcls; cases h; rfl
  by_cases hret : w = 0x00EE#16
  · subst hret; cases h; rfl
  have hpattern : rowMatches w i.pattern = true := (isWordOf_of_decodeWord h).2 ▸ rowMatches_pattern i
  obtain ⟨row, hfind⟩ := Option.isSome_iff_exists.mp
    (List.find?_isSome.mpr ⟨i.pattern, pattern_mem_opcodeMap i, hpattern⟩)
  rw [opcodeRow, hfind, row_unique (List.mem_of_find?_eq_some hfind) (pattern_mem_opcodeMap i)
    (List.find?_some hfind) hpattern hcls hret]

/-! ### The words no row matches -/

/-- Where a row's mask covers a field, the words it matches have the field's fixed value. -/
theorem slice_of_rowMatches {w : Word} {row : Word × Word} {lo len : Nat} (hw : rowMatches w row = true)
    (hmask : row.1.extractLsb' lo len = BitVec.allOnes len) : row.2.extractLsb' lo len = w.extractLsb' lo len := by
  rw [← beq_iff_eq.mp hw, BitVec.extractLsb'_and, hmask, BitVec.and_allOnes]

/-- A word some row matches has, in a field the rows of its group all fix, one of the values they fix it to. -/
theorem slice_mem_of_opcodeRow {w : Word} {row : Word × Word} {g : BitVec 4} {lo len : Nat} {fixed : List (BitVec len)}
    (h : opcodeRow w = some row) (hg : fieldGroup w = g)
    (hrows : opcodeMap.all (fun row => decide (fieldGroup row.2 = g →
      row.1.extractLsb' lo len = BitVec.allOnes len ∧ row.2.extractLsb' lo len ∈ fixed)) = true) :
    w.extractLsb' lo len ∈ fixed := by
  have hrow := List.mem_of_find?_eq_some h
  have hw := List.find?_some h
  have hgroup : fieldGroup row.2 = fieldGroup w := slice_of_rowMatches hw
    (forall_mem_opcodeMap (P := fun row => row.1.extractLsb' 12 4 = BitVec.allOnes 4) (by decide) hrow)
  obtain ⟨hmask, hmem⟩ := forall_mem_opcodeMap hrows hrow (hgroup.trans hg)
  exact slice_of_rowMatches hw hmask ▸ hmem

/-- A word some row matches is one the decoder gives an instruction. -/
theorem decodeWord_ne_error {w : Word} {row : Word × Word} (h : opcodeRow w = some row) (e : DecodeError) :
    decodeWord w ≠ .error e := by
  intro herror
  have hfirst := firstLevel_decodeWord w
  generalize decodeWord w = d at herror hfirst
  cases hfirst with
  | group0 =>
    unfold decodeGroup0 at herror
    split at herror
    · cases herror
    · split at herror <;> cases herror
  | group5 hg =>
    have hn : fieldN w ∈ [0x0#4] := slice_mem_of_opcodeRow h hg (by decide)
    unfold decodeGroup5 at herror
    split at herror <;> cases herror
    simp_all
  | group8 hg =>
    have hn : fieldN w ∈ [0x0#4, 0x1#4, 0x2#4, 0x3#4, 0x4#4, 0x5#4, 0x6#4, 0x7#4, 0xE#4] :=
      slice_mem_of_opcodeRow h hg (by decide)
    unfold decodeGroup8 at herror
    split at herror <;> cases herror
    simp_all
  | group9 hg =>
    have hn : fieldN w ∈ [0x0#4] := slice_mem_of_opcodeRow h hg (by decide)
    unfold decodeGroup9 at herror
    split at herror <;> cases herror
    simp_all
  | groupE hg =>
    have hn : fieldNN w ∈ [0x9E#8, 0xA1#8] := slice_mem_of_opcodeRow h hg (by decide)
    unfold decodeGroupE at herror
    split at herror <;> cases herror
    simp_all
  | groupF hg =>
    have hn : fieldNN w ∈ [0x07#8, 0x0A#8, 0x15#8, 0x18#8, 0x1E#8, 0x29#8, 0x33#8, 0x55#8, 0x65#8] :=
      slice_mem_of_opcodeRow h hg (by decide)
    unfold decodeGroupF at herror
    split at herror <;> cases herror
    simp_all
  | _ => cases herror

end Sys2Proof
end

section
open Sys2Proof

/-- Settles O48: the two bytes make the instruction's word again, and the decoder reads back its fields. -/
theorem decodeInvertsEncode : Obligations.DecodeInvertsEncode := by
  intro i hwf
  rw [decode, wordOf_encodeBytes, decodeWord_encode hwf]

/-- Settles O49, by the group of the word. -/
theorem encodeInvertsDecode : Obligations.EncodeInvertsDecode := fun _ _ => isWordOf_of_decodeWord

/-- Settles O50: the row of a decoded instruction is the only one that matches, or stands before SYS's; and a word that some
row matches has the group and the low bits of a branch of the decode tree. -/
theorem decodeTreeAgreesWithOpcodeMap : Obligations.DecodeTreeAgreesWithOpcodeMap := fun _ =>
  ⟨fun _ => opcodeRow_of_decodeWord, fun e herror =>
    ⟨Option.eq_none_iff_forall_ne_some.mpr fun _ hrow => decodeWord_ne_error hrow e herror, decodeWord_error herror⟩⟩

/-- Settles O47: each word is evaluated. -/
theorem writtenWordsDecode : Obligations.WrittenWordsDecode := by
  unfold Obligations.WrittenWordsDecode
  decide

end

section
/-! SUPPORT. Faults (60_exceptions.md R230): the conditions an instruction raises, each with what it records, and when a STEP
faults. -/

namespace Sys2Proof.Machine

/-! ### The conditions raised at execute -/

/-- The list of R230: instruction `i` in state `s` raises the condition. -/
inductive Raises (s : State) : Instr → Fault → Prop where
  | sys (nnn : BitVec 12) : Raises s (.sys nnn) (.unknownOpcode (encode (.sys nnn)))
  | call (nnn : BitVec 12) (h : s.sp.val = 0) : Raises s (.call nnn) .stackOverflow
  | ret (h : s.sp.val = 16) : Raises s .ret .stackUnderflow
  | drw (x y : Reg) (n : BitVec 4) (h : ¬SpriteInMemory s y n) :
    Raises s (.drw x y n) (.addressOutOfRange (s.dataAddr (min n.toNat (32 - (s.reg y).toNat % 32) - 1)))
  | ldB (x : Reg) (h : s.dataAddr 2 > 0xFFF) : Raises s (.ldB x) (.addressOutOfRange (s.dataAddr 2))
  | ldMemVx (x : Reg) (h : s.dataAddr x.val > 0xFFF) : Raises s (.ldMemVx x) (.addressOutOfRange (s.dataAddr x.val))
  | ldVxMem (x : Reg) (h : s.dataAddr x.val > 0xFFF) : Raises s (.ldVxMem x) (.addressOutOfRange (s.dataAddr x.val))

/-- SYS records its own word (R140). -/
theorem zext12_eq_encode_sys (nnn : BitVec 12) : zext12 nnn = encode (.sys nnn) :=
  BitVec.eq_of_toNat_eq (by
    rw [zext12_toNat, encode, encNNN_toNat, BitVec.toNat_ofNat, Nat.zero_mod, Nat.zero_mul, Nat.zero_add])

variable {i : Instr} {s t : State} {f : Fault}

theorem exec_of_raises (h : Raises s i f) : exec i s = .fault f := by
  cases h with
  | sys nnn => rw [← zext12_eq_encode_sys]; rfl
  | call nnn h => exact exec_call_full nnn h
  | ret h => exact exec_ret_empty (by omega)
  | drw x y n h => exact exec_drw_fault x y n h
  | ldB x h => exact exec_ldB_fault x h
  | ldMemVx x h => exact exec_ldMemVx_fault x h
  | ldVxMem x h => exact exec_ldVxMem_fault x h

theorem fault_inj {f g : Fault} (h : (Host.Outcome.fault f : Result) = .fault g) : f = g := by simpa using h

/-- An instruction either completes or raises a condition of the list. -/
theorem exec_next_or_raises (i : Instr) (s : State) : (∃ t, exec i s = .next t) ∨ ∃ f, Raises s i f := by
  cases i with
  | sys nnn => exact .inr ⟨_, .sys nnn⟩
  | call nnn =>
    by_cases h : s.sp.val = 0
    · exact .inr ⟨_, .call nnn h⟩
    · exact .inl ⟨_, exec_call_ok nnn (by omega)⟩
  | ret =>
    by_cases h : s.sp.val < 16
    · exact .inl ⟨_, exec_ret_ok h⟩
    · exact .inr ⟨_, .ret (by omega)⟩
  | drw x y n =>
    by_cases h : SpriteInMemory s y n
    · exact .inl ⟨_, exec_drw_ok x y n h⟩
    · exact .inr ⟨_, .drw x y n h⟩
  | ldB x =>
    by_cases h : s.dataAddr 2 > 0xFFF
    · exact .inr ⟨_, .ldB x h⟩
    · exact .inl ⟨_, exec_ldB_ok x (by omega)⟩
  | ldMemVx x =>
    by_cases h : s.dataAddr x.val > 0xFFF
    · exact .inr ⟨_, .ldMemVx x h⟩
    · exact .inl ⟨_, exec_ldMemVx_ok x (by omega)⟩
  | ldVxMem x =>
    by_cases h : s.dataAddr x.val > 0xFFF
    · exact .inr ⟨_, .ldVxMem x h⟩
    · exact .inl ⟨_, exec_ldVxMem_ok x (by omega)⟩
  | ldVxK x =>
    cases h : s.latch with
    | key k => exact .inl ⟨_, exec_ldVxK_key x h⟩
    | none => exact .inl ⟨_, exec_ldVxK_wait x (.inl h)⟩
    | wantEvent => exact .inl ⟨_, exec_ldVxK_wait x (.inr h)⟩
  | _ => exact .inl ⟨_, rfl⟩

/-- An instruction faults exactly as the list says (R230). -/
theorem exec_eq_fault_iff : exec i s = .fault f ↔ Raises s i f := by
  refine ⟨fun h => ?_, exec_of_raises⟩
  obtain ⟨t, ht⟩ | ⟨g, hg⟩ := exec_next_or_raises i s
  · rw [ht] at h; cases h
  · exact fault_inj ((exec_of_raises hg).symm.trans h) ▸ hg

/-- No instruction is refused. -/
theorem exec_ne_refused (r : Refusal) : exec i s ≠ .refused r := by
  intro h
  obtain ⟨t, ht⟩ | ⟨g, hg⟩ := exec_next_or_raises i s
  · rw [ht] at h; cases h
  · rw [exec_of_raises hg] at h; cases h

/-- The highest row a DXYN would read, when its rows do not all lie in memory. -/
theorem lastRow_gt_of_not_spriteInMemory {y : Reg} {n : BitVec 4} (h : ¬SpriteInMemory s y n) :
    s.dataAddr (min n.toNat (32 - (s.reg y).toNat % 32) - 1) > 0xFFF := by
  simp only [SpriteInMemory, State.dataAddr] at h ⊢
  omega

/-- The conditions depend on the registers, I and `sp` alone. -/
theorem raises_congr (hv : t.v = s.v) (hi : t.i = s.i) (hsp : t.sp = s.sp) (h : Raises s i f) : Raises t i f := by
  have hreg : ∀ q, t.reg q = s.reg q := reg_congr hv
  have haddr : ∀ k, t.dataAddr k = s.dataAddr k := fun k => by rw [State.dataAddr, hi, State.dataAddr]
  have hsprite : ∀ y n, SpriteInMemory t y n ↔ SpriteInMemory s y n := fun y n => by
    rw [SpriteInMemory, hi, hreg, SpriteInMemory]
  cases h with
  | sys nnn => exact .sys nnn
  | call nnn h => exact .call nnn (hsp ▸ h)
  | ret h => exact .ret (hsp ▸ h)
  | drw x y n h => rw [← haddr, ← hreg]; exact .drw x y n (mt (hsprite y n).mp h)
  | ldB x h => rw [← haddr]; exact .ldB x (haddr 2 ▸ h)
  | ldMemVx x h => rw [← haddr]; exact .ldMemVx x (haddr x.val ▸ h)
  | ldVxMem x h => rw [← haddr]; exact .ldVxMem x (haddr x.val ▸ h)

/-! ### A STEP that faults -/

/-- A STEP faults in its fetch, its decode or its instruction. -/
theorem stepCore_eq_fault {r : Byte} : stepCore r s = .fault f ↔
    s.fetch = .error f ∨ ∃ b, s.fetch = .ok b ∧
      (decodeStep b.1 b.2 = .error f ∨ ∃ op, decodeStep b.1 b.2 = .ok op ∧ exec op (withRnd r s) = .fault f) := by
  simp only [stepCore, orRaise_eq_fault, mapNext_eq_fault]

/-- The fetch depends on `pc` and memory alone. -/
theorem fetch_congr (hmem : t.mem = s.mem) (hpc : t.pc = s.pc) : t.fetch = s.fetch := by
  simp only [State.fetch, State.memRead, hmem, hpc]

/-- Whether a STEP faults, and with what, depends on the registers, memory, I, `pc` and `sp` alone. -/
theorem stepCore_fault_congr {r r' : Byte} (hv : t.v = s.v) (hmem : t.mem = s.mem) (hi : t.i = s.i) (hpc : t.pc = s.pc)
    (hsp : t.sp = s.sp) (h : stepCore r s = .fault f) : stepCore r' t = .fault f := by
  rw [stepCore_eq_fault] at h ⊢
  rw [fetch_congr hmem hpc]
  refine h.imp_right fun ⟨b, hb, hrest⟩ => ⟨b, hb, hrest.imp_right fun ⟨op, hop, hexec⟩ => ⟨op, hop, ?_⟩⟩
  rw [exec_eq_fault_iff] at hexec ⊢
  exact raises_congr (s := withRnd r s) (t := withRnd r' t) hv hi hsp hexec

/-- An unknown word faults at decode, by its name (R231). -/
theorem decodeStep_error {b1 b2 : Byte} {w : Word} (h : decode b1 b2 = .error (.unknownOpcode w)) :
    decodeStep b1 b2 = .error (.unknownOpcode w) := by
  rw [decodeStep, h]

end Sys2Proof.Machine
end

section
open Sys2Proof Sys2Proof.Machine

/-- Settles O11: SYS is the first of the listed conditions, and has no other outcome. -/
theorem sysRaisesUnknownOpcode : Obligations.SysRaisesUnknownOpcode := fun nnn _ => exec_of_raises (.sys nnn)

/-- Settles O24: the four conditions of the list that record an address. -/
theorem accessAboveMemoryRaisesAddressOutOfRange : Obligations.AccessAboveMemoryRaisesAddressOutOfRange := fun x y n _ =>
  ⟨fun h => exec_of_raises (.ldB x h), fun h => exec_of_raises (.ldMemVx x h), fun h => exec_of_raises (.ldVxMem x h),
    fun h => exec_of_raises (.drw x y n h)⟩

/-- Settles O43: a fault is one of the list, and no instruction is refused. -/
theorem onlyListedInstructionsFault : Obligations.OnlyListedInstructionsFault := by
  refine fun i s => ⟨fun f hfault => ?_, exec_ne_refused⟩
  cases exec_eq_fault_iff.mp hfault with
  | sys nnn => exact .inl ⟨nnn, rfl, rfl⟩
  | call nnn h => exact .inr (.inl ⟨nnn, rfl, rfl, h⟩)
  | ret h => exact .inr (.inr (.inl ⟨rfl, rfl, h⟩))
  | drw x y n h =>
    exact .inr (.inr (.inr ⟨_, lastRow_gt_of_not_spriteInMemory h, rfl, .inl ⟨x, y, n, rfl, h⟩⟩))
  | ldB x h => exact .inr (.inr (.inr ⟨_, h, rfl, .inr (.inl ⟨x, rfl, h⟩)⟩))
  | ldMemVx x h => exact .inr (.inr (.inr ⟨_, h, rfl, .inr (.inr ⟨x, .inl rfl, h⟩)⟩))
  | ldVxMem x h => exact .inr (.inr (.inr ⟨_, h, rfl, .inr (.inr ⟨x, .inr rfl, h⟩)⟩))

/-- Settles O44: what a STEP's fault depends on is what the hypotheses keep. -/
theorem faultingStepFaultsAgain : Obligations.FaultingStepFaultsAgain := by
  intro s t u w r r' f hs hfault ht hregs hmem hi hpc hstack
  obtain ⟨hstep, hu⟩ := step_of_stepsWith hs
  obtain ⟨hstep', hw⟩ := step_of_stepsWith ht
  have hv : t.v = s.v := v_ext fun q => hregs q List.not_mem_nil
  rw [hstep] at hfault
  rw [hstep']
  refine stepCore_fault_congr ?_ ?_ ?_ ?_ ?_ hfault <;> rw [hu, hw]
  exacts [hv, hmem, hi, hpc, hstack.1]

/-- Settles O42: the fetch fails before any byte is decoded, and the decoder before anything is executed. -/
theorem fetchFaultsBeforeDecodeFaults : Obligations.FetchFaultsBeforeDecodeFaults := by
  intro s u r hs
  obtain ⟨hstep, hu⟩ := step_of_stepsWith hs
  have hfetch : u.fetch = s.fetch := by rw [hu]; exact fetch_congr rfl rfl
  simp only [hstep, stepCore_eq_fault, hfetch]
  refine ⟨fun hpc => .inl ?lastByte, fun hpc => .inl ?aboveMemory, fun w hpc hdecode => ⟨.inr ?unknown, ?word⟩⟩
  case lastByte => rw [fetch_error (by omega), if_neg (by omega), hpc]
  case aboveMemory => rw [fetch_error (by omega), if_pos hpc]
  case unknown => exact ⟨_, fetch_ok hpc, .inl (decodeStep_error hdecode)⟩
  case word =>
    obtain rfl : w = _ := DecodeError.unknownOpcode.inj (decodeWord_error hdecode)
    exact wordOf_toNat _ _

end

section
/-! SUPPORT. What an instruction writes: the elements of the state and the general registers each instruction can change
(10_state.md R23 to R33), and that none but CXNN reads the random input. -/

namespace Sys2Proof.Machine

variable {i : Instr} {s t : State}

/-! ### Writers of the state elements -/

/-- Each element changes only by its own instructions (10_state.md R24, R27 to R30, R33, 20_memory.md R50), and the redraw
flag is that of 00E0 and DXYN (decision D13). -/
structure WritesOwnElements (i : Instr) (s t : State) : Prop where
  mem : t.mem ≠ s.mem → ∃ x, i = .ldB x ∨ i = .ldMemVx x
  index : t.i ≠ s.i → (∃ nnn, i = .ldI nnn) ∨ ∃ x, i = .addI x ∨ i = .ldF x ∨ i = .ldMemVx x ∨ i = .ldVxMem x
  stack : t.sp ≠ s.sp ∨ t.stack ≠ s.stack → i = .ret ∨ ∃ nnn, i = .call nnn
  dt : t.dt ≠ s.dt → ∃ x, i = .ldDtVx x
  st : t.st ≠ s.st → ∃ x, i = .ldStVx x
  display : t.display ≠ s.display → i = .cls ∨ ∃ x y n, i = .drw x y n
  latch : t.latch ≠ s.latch → ∃ x, i = .ldVxK x
  redraw : t.redraw = true ↔ i = .cls ∨ ∃ x y n, i = .drw x y n

/-- By the next state of each instruction: computed where it always completes, by its inversion lemma elsewhere. -/
theorem exec_writesOwnElements (h : exec i s = .next t) : WritesOwnElements i s t := by
  cases i with
  | sys nnn => cases h
  | ret => obtain ⟨_, rfl⟩ := exec_ret_next h; constructor <;> simp
  | call nnn => obtain ⟨_, rfl⟩ := exec_call_next h; constructor <;> simp
  | ldB x => obtain ⟨_, rfl⟩ := exec_ldB_next h; constructor <;> simp
  | ldMemVx x => obtain ⟨_, rfl⟩ := exec_ldMemVx_next h; constructor <;> simp
  | ldVxMem x => obtain ⟨_, rfl⟩ := exec_ldVxMem_next h; constructor <;> simp
  | drw x y n => obtain ⟨_, rfl⟩ := exec_drw_next h; constructor <;> simp [drawnState]
  | ldVxK x => obtain ⟨_, _, rfl⟩ | ⟨_, rfl⟩ := exec_ldVxK_next h <;> constructor <;> simp
  | _ => obtain rfl := next_inj h; constructor <;> simp

theorem exec_keeps_mem (h : exec i s = .next t) (hi : ∀ x, i ≠ .ldB x ∧ i ≠ .ldMemVx x) : t.mem = s.mem := by
  by_contra hne
  obtain ⟨x, hx | hx⟩ := (exec_writesOwnElements h).mem hne
  exacts [(hi x).1 hx, (hi x).2 hx]

theorem exec_keeps_stack (h : exec i s = .next t) (hret : i ≠ .ret) (hcall : ∀ nnn, i ≠ .call nnn) : KeepsStack s t := by
  by_contra hne
  obtain hi | ⟨nnn, hi⟩ := (exec_writesOwnElements h).stack (not_and_or.mp hne)
  exacts [hret hi, hcall nnn hi]

theorem exec_keeps_latch (h : exec i s = .next t) (hi : ∀ x, i ≠ .ldVxK x) : t.latch = s.latch := by
  by_contra hne
  obtain ⟨x, hx⟩ := (exec_writesOwnElements h).latch hne
  exact hi x hx

/-! ### Writers of the general registers -/

/-- The general registers an instruction can write. -/
def destinations : Instr → List Reg
  | .ldImm x _ | .addImm x _ | .ldReg x _ | .rnd x _ | .ldVxDt x | .ldVxK x => [x]
  | .orReg x _ | .andReg x _ | .xorReg x _ | .addReg x _ | .subReg x _ | .shr x _ | .subn x _ | .shl x _ => [x, VF]
  | .drw _ _ _ => [VF]
  | .ldVxMem x => (List.finRange 16).filter (· ≤ x)
  | _ => []

theorem keepsRegs_of_writesRegister {x : Reg} {b : Byte} (hw : WritesRegister i x b s) (h : exec i s = .next t) :
    KeepsRegs [x] s t := by
  obtain ⟨u, hu, -, hregs, -⟩ := hw
  obtain rfl := next_inj (hu.symm.trans h)
  exact hregs

theorem keepsRegs_of_writesResultAndFlag {x : Reg} {result : Nat} {flag : Byte} (hw : WritesResultAndFlag i x result flag s)
    (h : exec i s = .next t) : KeepsRegs [x, VF] s t := by
  obtain ⟨u, hu, -, -, hregs, -⟩ := hw
  obtain rfl := next_inj (hu.symm.trans h)
  exact hregs

/-- An instruction keeps every register that is none of its destinations. -/
theorem exec_keepsRegs (h : exec i s = .next t) : KeepsRegs (destinations i) s t := by
  cases i with
  | ldImm | addImm | ldReg | rnd | ldVxDt => exact keepsRegs_of_writesRegister (writesRegister_of_exec rfl) h
  | orReg | andReg | xorReg | addReg | subReg | shr | subn | shl =>
    exact keepsRegs_of_writesResultAndFlag (writesResultAndFlag_of_exec rfl rfl rfl) h
  | sys nnn => cases h
  | ret => obtain ⟨_, rfl⟩ := exec_ret_next h; exact fun _ _ => rfl
  | call nnn => obtain ⟨_, rfl⟩ := exec_call_next h; exact fun _ _ => rfl
  | ldB x => obtain ⟨_, rfl⟩ := exec_ldB_next h; exact fun _ _ => rfl
  | ldMemVx x => obtain ⟨_, rfl⟩ := exec_ldMemVx_next h; exact fun _ _ => rfl
  | drw x y n =>
    obtain ⟨_, rfl⟩ := exec_drw_next h
    exact fun q hq => reg_drawnState x y n s (List.ne_of_not_mem_cons hq)
  | ldVxMem x =>
    obtain ⟨_, rfl⟩ := exec_ldVxMem_next h
    intro q hq
    have habove : ¬q.val ≤ x.val := by simpa [destinations] using hq
    exact (reg_block_loaded s x q).trans (if_neg habove)
  | ldVxK x =>
    obtain ⟨k, _, rfl⟩ | ⟨_, rfl⟩ := exec_ldVxK_next h
    · exact fun q hq => (reg_setReg s x (keyByte k) q).trans (if_neg (List.ne_of_not_mem_cons hq))
    · exact fun _ _ => rfl
  | _ => obtain rfl := next_inj h; exact fun _ _ => rfl

/-! ### Readers of the random input -/

/-- What a block load leaves in the registers depends on the registers and the bytes alone. -/
theorem v_setRegs_congr (h : t.v = s.v) (k : Nat) (bs : List Byte) : (t.setRegs k bs).v = (s.setRegs k bs).v :=
  v_ext fun q => by rw [reg_setRegs, reg_setRegs, reg_congr h]

/-- An instruction other than CXNN does the same whatever random input is presented (decision D17): the checked ones take
the same branch, the others compute the same state. -/
theorem exec_withRnd (hi : ∀ x nn, i ≠ .rnd x nn) (r : Byte) : exec i (withRnd r s) = mapNext (withRnd r) (exec i s) := by
  obtain ⟨t, ht⟩ | ⟨f, hf⟩ := exec_next_or_raises i s
  case inr =>
    have hraises : Raises (withRnd r s) i f := raises_congr (s := s) (t := withRnd r s) rfl rfl rfl hf
    rw [exec_of_raises hf, exec_of_raises hraises]
    rfl
  rw [ht]
  cases i with
  | rnd x nn => exact absurd rfl (hi x nn)
  | sys nnn => cases ht
  | ret =>
    obtain ⟨hsp, rfl⟩ := exec_ret_next ht
    exact exec_ret_ok (s := withRnd r s) hsp
  | call nnn =>
    obtain ⟨hsp, rfl⟩ := exec_call_next ht
    exact exec_call_ok (s := withRnd r s) nnn hsp
  | ldB x =>
    obtain ⟨haddr, rfl⟩ := exec_ldB_next ht
    exact exec_ldB_ok (s := withRnd r s) x haddr
  | ldMemVx x =>
    obtain ⟨haddr, rfl⟩ := exec_ldMemVx_next ht
    exact exec_ldMemVx_ok (s := withRnd r s) x haddr
  | ldVxMem x =>
    obtain ⟨haddr, rfl⟩ := exec_ldVxMem_next ht
    have hv : ∀ bs, ((withRnd r s).setRegs 0 bs).v = (s.setRegs 0 bs).v := v_setRegs_congr (withRnd_v s r) 0
    rw [exec_ldVxMem_ok (s := withRnd r s) x haddr, hv]
    rfl
  | drw x y n =>
    obtain ⟨hsprite, rfl⟩ := exec_drw_next ht
    exact exec_drw_ok (s := withRnd r s) x y n hsprite
  | ldVxK x =>
    obtain ⟨k, hlatch, rfl⟩ | ⟨hlatch, rfl⟩ := exec_ldVxK_next ht
    · exact exec_ldVxK_key (s := withRnd r s) x hlatch
    · exact exec_ldVxK_wait (s := withRnd r s) x hlatch
  | _ => obtain rfl := next_inj ht; rfl

end Sys2Proof.Machine
end

section
/-! SUPPORT. One step of the machine, whole: a STEP as exec of the instruction at `pc`, and the cases of a step that answers a
next state. -/

namespace Sys2Proof.Machine

variable {i : Instr} {s t u : State} {r : Byte}

/-! ### A STEP -/

/-- A STEP with an instruction at `pc` is exec of it, with the random input presented and its outputs recorded. -/
theorem step_of_instructionAtPc (hs : StepsWith s r u) (hi : InstructionAtPc s i) :
    step s = mapNext (recordStep (s.mem.read s.pc.toNat) (s.mem.read (s.pc.toNat + 1)) i) (exec i (withRnd r u)) := by
  obtain ⟨hstep, hu⟩ := step_of_stepsWith hs
  obtain ⟨hpc, hdecode⟩ := hi
  have hfetch : u.fetch = s.fetch := by rw [hu]; exact fetch_congr rfl rfl
  rw [hstep, stepCore, hfetch, fetch_ok hpc, orRaise_ok, decodeStep_eq_ok.mpr hdecode, orRaise_ok]

/-- The instruction at `pc` is the only one there. -/
theorem instructionAtPc_unique {j : Instr} (hi : InstructionAtPc s i) (hj : InstructionAtPc s j) : i = j :=
  Except.ok.inj (hi.2.symm.trans hj.2)

/-! ### The cases of a step -/

/-- What a step that answers a next state was: a STEP, which ran the instruction at `pc` on the same machine, or one of the
other transactions (00_scope.md R7). -/
inductive StepCase (s : State) : State → Prop where
  | instruction {b1 b2 : Byte} {op : Instr} {r : Byte} {inbox : List Transaction} {draws : Nat} {v : State}
    (hat : InstructionAtPc s op) (hexec : exec op { s with rnd := r, inbox := inbox, draws := draws } = .next v) :
    StepCase s (recordStep b1 b2 op v)
  | reset (rest : List Transaction) : StepCase s (resetMachine (withInbox rest s))
  | load (rest : List Transaction) {rom : List Byte} (hlength : rom.length ≤ 3584) (hphase : s.phase = .reset) :
    StepCase s { s with inbox := rest, mem := s.mem.writeList Config.progBase rom, phase := .loaded }
  | tick (rest : List Transaction) : StepCase s (tick (withInbox rest s))
  | keyDown (rest : List Transaction) (k : Key) : StepCase s (keyDown k (withInbox rest s))
  | keyUp (rest : List Transaction) (k : Key) : StepCase s (keyUp k (withInbox rest s))
  | displayRead (rest : List Transaction) : StepCase s (displayRead (withInbox rest s))

/-- A STEP on a machine that differs in the host's side only. -/
theorem stepCase_of_stepCore {inbox : List Transaction} {draws : Nat}
    (h : stepCore r { s with inbox := inbox, draws := draws } = .next t) : StepCase s t := by
  obtain ⟨op, v, hpc, hdecode, hexec, rfl⟩ := stepCore_eq_next.mp h
  exact .instruction ⟨hpc, hdecode⟩ hexec

theorem stepCase_of_step (h : step s = .next t) : StepCase s t := by
  cases hin : s.inbox with
  | nil => exact stepCase_of_stepCore (step_idle hin ▸ h)
  | cons tr rest =>
    cases tr with
    | step r => exact stepCase_of_stepCore (step_step hin ▸ h)
    | reset => exact next_inj (step_reset hin ▸ h) ▸ .reset rest
    | tick => exact next_inj (step_tick hin ▸ h) ▸ .tick rest
    | keyDown k => exact next_inj (step_keyDown hin ▸ h) ▸ .keyDown rest k
    | keyUp k => exact next_inj (step_keyUp hin ▸ h) ▸ .keyUp rest k
    | displayRead => exact next_inj (step_displayRead hin ▸ h) ▸ .displayRead rest
    | load rom =>
      obtain ⟨hlength, hphase, rfl⟩ := load_next (step_load hin ▸ h)
      exact .load rest hlength hphase

end Sys2Proof.Machine
end

section
/-! SUPPORT. The three invariants (O54 to O56): what exec does to each, and that every transaction keeps it. -/

namespace Sys2Proof.Machine

variable {i : Instr} {s t : State}

/-! ### The reset state -/

theorem memCanonical_reset : MemCanonical State.reset := Memory.wf_nil

/-- No record is live in an empty stack. -/
theorem pcBounded_reset : PcBounded State.reset :=
  ⟨by decide, fun _ hk hlive => absurd (Nat.lt_of_le_of_lt hlive hk) (Nat.lt_irrefl 16)⟩

theorem latchWaits_reset : LatchWaits State.reset := ⟨fun h => absurd rfl h, fun _ => rfl⟩

/-! ### Memory in canonical form (20_memory.md R50) -/

/-- The two instructions that write memory write inside it; the others leave it. -/
theorem exec_keeps_memCanonical (h : exec i s = .next t) (hs : MemCanonical s) : MemCanonical t := by
  by_cases hi : ∃ x, i = .ldB x ∨ i = .ldMemVx x
  case neg =>
    rw [MemCanonical, exec_keeps_mem h fun x => ⟨fun hx => hi ⟨x, .inl hx⟩, fun hx => hi ⟨x, .inr hx⟩⟩]
    exact hs
  obtain ⟨x, rfl | rfl⟩ := hi
  · obtain ⟨haddr, rfl⟩ := exec_ldB_next h
    refine Memory.wf_writeList hs ?_
    simp only [bcdDigits_length, State.dataAddr, Config.memSize] at haddr ⊢
    omega
  · obtain ⟨haddr, rfl⟩ := exec_ldMemVx_next h
    refine Memory.wf_writeList hs ?_
    simp only [regsUpTo_length, State.dataAddr, Config.memSize] at haddr ⊢
    omega

theorem step_keeps_memCanonical (hs : MemCanonical s) (h : step s = .next t) : MemCanonical t := by
  cases stepCase_of_step h with
  | instruction _ hexec => exact (exec_keeps_memCanonical hexec hs :)
  | reset => exact Memory.wf_nil
  | load _ hlength => exact Memory.wf_writeList hs (Nat.add_le_add_left hlength 0x200)
  | tick | keyDown | keyUp | displayRead => exact hs

/-! ### `pc` and the live return records (10_state.md R26) -/

/-- Every live return record is the address of an instruction in memory. -/
def LiveRecordsInMemory (s : State) : Prop := ∀ k, (h : k < 16) → s.sp.val ≤ k → s.stack[k].toNat ≤ 0xFFE

theorem toNat_add_le {p : Word} (hp : p.toNat ≤ 0xFFE) (d : Nat) (hd : d ≤ 4) : (p + BitVec.ofNat 16 d).toNat ≤ 0x10FE := by
  rw [BitVec.toNat_add, BitVec.toNat_ofNat]
  omega

/-- From an instruction in memory `pc` goes at most to NNN + V0 (R148). -/
theorem exec_pc_le (h : exec i s = .next t) (hpc : s.pc.toNat ≤ 0xFFE) (hs : LiveRecordsInMemory s) :
    t.pc.toNat ≤ 0x10FE := by
  have hjump : ∀ nnn, (zext12 nnn).toNat ≤ 0x10FE := fun nnn => by
    have := nnn.isLt
    rw [zext12_toNat]
    omega
  have hnext := toNat_add_le hpc 2 (by decide)
  have hskip : ∀ c : Bool, (if c then s.pc + 4#16 else s.pc + 2#16).toNat ≤ 0x10FE := fun c => by
    cases c
    exacts [hnext, toNat_add_le hpc 4 (by decide)]
  cases i with
  | sys nnn => cases h
  | ret =>
    obtain ⟨hsp, rfl⟩ := exec_ret_next h
    exact toNat_add_le (hs _ hsp (Nat.le_refl _)) 2 (by decide)
  | call nnn => obtain ⟨_, rfl⟩ := exec_call_next h; exact hjump nnn
  | jp nnn => obtain rfl := next_inj h; exact hjump nnn
  | jpV0 nnn =>
    obtain rfl := next_inj h
    have := nnn.isLt
    have := (s.reg 0).isLt
    change (zext12 nnn + zext8 (s.reg 0)).toNat ≤ 0x10FE
    rw [BitVec.toNat_add, zext12_toNat, zext8_toNat]
    omega
  | seImm | sneImm | seReg | sneReg | skp | sknp => obtain rfl := next_inj h; exact hskip _
  | ldB x => obtain ⟨_, rfl⟩ := exec_ldB_next h; exact hnext
  | ldMemVx x => obtain ⟨_, rfl⟩ := exec_ldMemVx_next h; exact hnext
  | ldVxMem x => obtain ⟨_, rfl⟩ := exec_ldVxMem_next h; exact hnext
  | drw x y n => obtain ⟨_, rfl⟩ := exec_drw_next h; exact hnext
  | ldVxK x =>
    obtain ⟨_, _, rfl⟩ | ⟨_, rfl⟩ := exec_ldVxK_next h
    · exact hnext
    · exact Nat.le_trans hpc (by decide)
  | _ => obtain rfl := next_inj h; exact hnext

/-- CALL's new record is the address it was fetched from; RET leaves fewer live; no other instruction writes the stack. -/
theorem exec_keeps_liveRecords (h : exec i s = .next t) (hpc : s.pc.toNat ≤ 0xFFE) (hs : LiveRecordsInMemory s) :
    LiveRecordsInMemory t := by
  by_cases hret : i = .ret
  · subst hret
    obtain ⟨_, rfl⟩ := exec_ret_next h
    exact fun k hk hlive => hs k hk (Nat.le_of_succ_le hlive)
  by_cases hcall : ∃ nnn, i = .call nnn
  · obtain ⟨nnn, rfl⟩ := hcall
    obtain ⟨hsp, rfl⟩ := exec_call_next h
    intro k hk hlive
    rw [Vector.getElem_set]
    split
    · exact hpc
    · exact hs k hk (by simp only at hlive; omega)
  · obtain ⟨hsp, hstack⟩ := exec_keeps_stack h hret fun nnn hnnn => hcall ⟨nnn, hnnn⟩
    rw [LiveRecordsInMemory, hsp, hstack]
    exact hs

theorem step_keeps_pcBounded (hs : PcBounded s) (h : step s = .next t) : PcBounded t := by
  cases stepCase_of_step h with
  | instruction hat hexec => exact ⟨(exec_pc_le hexec hat.1 hs.2 :), (exec_keeps_liveRecords hexec hat.1 hs.2 :)⟩
  | reset => exact pcBounded_reset
  | load | tick | keyDown | keyUp | displayRead => exact hs

/-! ### The latch at its wait (44_keypad_timers.md R206) -/

/-- FX0A stays where it is while it waits; an instruction that is not one found the latch at NONE and leaves it there. -/
theorem exec_keeps_latchAtWait (h : exec i s = .next t) (hat : InstructionAtPc s i)
    (hs : s.latch ≠ .none → ∃ x, InstructionAtPc s (.ldVxK x)) (hlatch : t.latch ≠ .none) :
    ∃ x, InstructionAtPc t (.ldVxK x) := by
  by_cases hi : ∃ x, i = .ldVxK x
  · obtain ⟨x, rfl⟩ := hi
    obtain ⟨_, _, rfl⟩ | ⟨_, rfl⟩ := exec_ldVxK_next h
    · exact absurd rfl hlatch
    · exact ⟨x, hat⟩
  · have hkept : t.latch = s.latch := exec_keeps_latch h fun x hx => hi ⟨x, hx⟩
    obtain ⟨x, hx⟩ := hs (hkept ▸ hlatch)
    exact absurd ⟨x, instructionAtPc_unique hat hx⟩ hi

/-- A release leaves a latch at NONE there. -/
theorem latchOnRelease_eq_none {k : Key} {d : Bool} {l : Latch} (h : l = .none) : latchOnRelease k d l = .none := by
  rw [h]
  rfl

theorem step_keeps_latchWaits (hs : LatchWaits s) (h : step s = .next t) : LatchWaits t := by
  obtain ⟨hwait, hbefore⟩ := hs
  cases stepCase_of_step h with
  | instruction hat hexec => exact ⟨(exec_keeps_latchAtWait hexec hat hwait :), fun hphase => absurd rfl hphase⟩
  | reset => exact latchWaits_reset
  | load _ _ hphase =>
    have hlatch : s.latch = .none := hbefore (by rw [hphase]; decide)
    exact ⟨fun hne => absurd hlatch hne, fun _ => hlatch⟩
  | tick | keyDown | displayRead => exact ⟨hwait, hbefore⟩
  | keyUp _ k =>
    exact ⟨fun hne => hwait (mt latchOnRelease_eq_none hne), fun hphase => latchOnRelease_eq_none (hbefore hphase)⟩

end Sys2Proof.Machine
end

section
open Sys2Proof Sys2Proof.Machine

/-- Settles O54, by the case of the step. -/
theorem everyStepKeepsMemoryCanonical : Obligations.EveryStepKeepsMemoryCanonical := fun _ _ => step_keeps_memCanonical

/-- Settles O55, by the case of the step: an instruction that completes was fetched in memory. -/
theorem everyStepKeepsPcBounded : Obligations.EveryStepKeepsPcBounded := fun _ _ => step_keeps_pcBounded

/-- Settles O56, by the case of the step: memory and `pc` stay while the latch waits, since only FX0A arms it. -/
theorem everyStepKeepsTheLatchAtItsWait : Obligations.EveryStepKeepsTheLatchAtItsWait := fun _ _ => step_keeps_latchWaits

/-- Settles O57: memory lists nothing, no record is live and the latch is NONE. -/
theorem resetStateMeetsTheInvariants : Obligations.ResetStateMeetsTheInvariants :=
  ⟨memCanonical_reset, pcBounded_reset, latchWaits_reset⟩

/-- Settles O10: the random input is carried along by every other instruction. -/
theorem onlyRandomReadsTheRandomInput : Obligations.OnlyRandomReadsTheRandomInput := fun _ _ r hi => exec_withRnd hi r

/-- Settles O45: the redraw flag is one of the elements with their own writers. -/
theorem redrawIsNeededExactlyForClearAndDraw : Obligations.RedrawIsNeededExactlyForClearAndDraw :=
  fun _ _ _ h => (exec_writesOwnElements h).redraw

/-- Settles O52: each element has its own writers, and the keypad has none. -/
theorem stateElementsHaveTheirOwnWriters : Obligations.StateElementsHaveTheirOwnWriters := by
  intro i s t h
  obtain ⟨hmem, hi, hstack, hdt, hst, hdisplay, hlatch, -⟩ := exec_writesOwnElements h
  exact ⟨hmem, hi, hstack, hdt, hst, hdisplay, hlatch, exec_keeps_keypad h⟩

/-- Settles O53: VF changes only where it is a destination. -/
theorem vfHasTheListedWriters : Obligations.VFHasTheListedWriters := by
  intro i s t h hchanged
  have hdest : VF ∈ destinations i := by
    by_contra hnot
    exact hchanged (exec_keepsRegs h VF hnot)
  cases i with
  | orReg x y | andReg x y | xorReg x y | addReg x y | subReg x y | shr x y | subn x y | shl x y =>
    exact .inl ⟨x, y, by simp⟩
  | drw x y n => exact .inl ⟨x, y, by simp⟩
  | ldImm x nn | addImm x nn | rnd x nn | ldReg x y | ldVxDt x | ldVxK x =>
    obtain rfl := List.mem_singleton.mp hdest
    simp
  | ldVxMem x =>
    obtain rfl : x = VF := by
      have hle : VF ≤ x := by simpa [destinations] using hdest
      exact Fin.le_antisymm (Fin.le_last x) hle
    simp
  | _ => exact absurd hdest List.not_mem_nil

/-- Settles O41: the step is exec of the instruction at `pc`, recorded. -/
theorem stepRunsTheDecodedInstruction : Obligations.StepRunsTheDecodedInstruction := by
  intro s u r i hs hat
  rw [step_of_instructionAtPc hs hat]
  exact ⟨fun t h => by rw [h]; rfl, fun f h => by rw [h]; rfl⟩

/-- Settles O9: CXNN at `pc` is one register write, of the host's byte masked by NN. -/
theorem stepPassesHostByteToRandom : Obligations.StepPassesHostByteToRandom := by
  intro s u r x nn hs hat
  obtain ⟨t, ht, hx, hregs, hpc, -, -, -, -, -, -, -, hinbox, -⟩ :=
    writesRegister_of_exec (i := .rnd x nn) (s := withRnd r u) rfl
  obtain ⟨-, hu⟩ := step_of_stepsWith hs
  refine ⟨_, (stepRunsTheDecodedInstruction s u r _ hs hat).1 t ht, hx, fun q hq => ?others, ?next, hinbox⟩
  case others => exact (hregs q hq).trans (by rw [hu]; rfl)
  case next => exact hpc.trans (by rw [hu]; rfl)

/-- Settles O46: the committed `pc` is the address the jump was fetched from. -/
theorem selfJumpIsAFixedPoint : Obligations.SelfJumpIsAFixedPoint := by
  intro s u r nnn hs hat hself
  obtain ⟨-, hu⟩ := step_of_stepsWith hs
  have hpc : zext12 nnn = s.pc := BitVec.eq_of_toNat_eq ((zext12_toNat nnn).trans hself)
  refine ⟨_, by rw [step_of_instructionAtPc hs hat]; rfl, ?_⟩
  rw [hu]
  exact ⟨fun _ _ => rfl, fun _ => rfl, rfl, hpc, ⟨rfl, rfl⟩, ⟨rfl, rfl⟩, fun _ _ _ _ => rfl, rfl, rfl⟩

end

section
open Sys2Proof Sys2Proof.Machine Sys2Proof.Laws

/-- Settles O14: RET reads the slot the CALL wrote, which is the only one either writes. -/
theorem callThenReturnRestoresPcAndSp : Obligations.CallThenReturnRestoresPcAndSp := by
  intro nnn s t u hcall hstack
  obtain ⟨hpos, rfl⟩ := exec_call_next hcall
  obtain ⟨husp, hustack⟩ := hstack
  have hsp : u.sp.val = s.sp.val - 1 := congrArg Fin.val husp
  have := s.sp.isLt
  refine ⟨_, exec_ret_ok (show u.sp.val < 16 by omega), ?pc, Fin.ext ?sp, fun k hk hother => ?slots⟩
  case pc => simp [hustack, hsp]
  case sp => exact (congrArg (· + 1) hsp).trans (Nat.sub_add_cancel hpos)
  case slots =>
    simp only [hustack, Vector.getElem_set]
    exact if_neg (by omega)

/-- Settles O16: the sum fits 16 bits, so it is not reduced. -/
theorem jumpWithOffsetAddsV0 : Obligations.JumpWithOffsetAddsV0 := by
  intro nnn s
  have hnnn := nnn.isLt
  have hv0 := (s.reg 0).isLt
  have hsum : (zext12 nnn + zext8 (s.reg 0)).toNat = nnn.toNat + (s.reg 0).toNat := by
    rw [BitVec.toNat_add, zext12_toNat, zext8_toNat]
    omega
  obtain ⟨t, ht, hpc, hredraw, hregs, hrest⟩ := onlySetsPc_of_exec (i := .jpV0 nnn) (s := s) rfl
  have htarget := (congrArg BitVec.toNat hpc).trans hsum
  exact ⟨EncodePattern.jpV0 nnn, t, ht, htarget, by omega, hredraw, hregs, hrest⟩

/-- Settles O19: FX1E is one write of I, of a 16-bit sum. -/
theorem addToIndexWrapsWithoutFlag : Obligations.AddToIndexWrapsWithoutFlag := fun x s =>
  ⟨EncodePattern.addI x, writesIndex_of_exec rfl (by rw [BitVec.toNat_add, zext8_toNat])⟩

/-- Settles O20: FX29 is one write of I. -/
theorem fontInstructionPointsAtGlyph : Obligations.FontInstructionPointsAtGlyph := fun x s =>
  ⟨EncodePattern.ldF x, writesIndex_of_exec rfl (glyphAddr_toNat (s.reg x))⟩

/-- Settles O30: EX9E skips on the key's bit, EXA1 on its negation. -/
theorem keySkipsTestTheLowNibble : Obligations.KeySkipsTestTheLowNibble := fun x _ =>
  ⟨⟨EncodePattern.skp x, skipsIf_of_exec rfl Iff.rfl⟩,
    ⟨EncodePattern.sknp x, skipsIf_of_exec rfl (Bool.not_eq_true' _).to_iff⟩⟩

end

section
/-! SUPPORT. Block transfers between registers and memory (42_index_memory.md): what a block write leaves in memory, and the
frame of FX33, FX55 and FX65. -/

namespace Sys2Proof.Machine

variable {s t : State} {a : Nat} {bs : List Byte}

/-- A block written from `a` inside memory is read back byte by byte. -/
theorem read_writeList_inside (hs : MemCanonical s) (ha : a + bs.length ≤ 4096) {k : Nat} (hk : k < bs.length) :
    (s.mem.writeList a bs).read (a + k) = bs.getD k 0#8 := by
  rw [Memory.read_writeList hs ha, if_pos (by omega), Nat.add_sub_cancel_left]

/-- And nothing outside it changes. -/
theorem keepsMemOutside_of_writeList (hs : MemCanonical s) (ha : a + bs.length ≤ 4096)
    (ht : t.mem = s.mem.writeList a bs) : KeepsMemOutside a bs.length s t := fun c hc => by
  rw [ht, Memory.read_writeList hs ha, if_neg hc]

/-- Writing registers, memory and I and advancing keeps everything else. -/
theorem transferFrame_of_write (s : State) (v : Vector Byte 16) (mem : Memory) (i : Word) :
    TransferFrame s { s with v := v, mem := mem, i := i, pc := s.pc + 2#16, redraw := false } :=
  ⟨rfl, rfl, ⟨rfl, rfl⟩, ⟨rfl, rfl⟩, fun _ _ _ _ => rfl, ⟨rfl, rfl⟩, rfl, rfl, rfl, rfl, rfl, rfl⟩

/-- I advanced past a block in memory does not wrap. -/
theorem advanced_index_toNat (x : Reg) (h : s.dataAddr x.val ≤ 0xFFF) :
    (s.i + BitVec.ofNat 16 (x.val + 1)).toNat = s.i.toNat + x.val + 1 := by
  simp only [State.dataAddr] at h
  rw [BitVec.toNat_add, BitVec.toNat_ofNat]
  omega

/-- The digits FX33 stores, by their place. -/
theorem bcdDigits_getD_toNat (b : Byte) (k : Nat) :
    ((bcdDigits b).getD k 0#8).toNat = [b.toNat / 100, b.toNat / 10 % 10, b.toNat % 10].getD k 0 :=
  (List.getD_map (bcdDigits b) 0#8 BitVec.toNat).symm.trans (congrArg (List.getD · k 0) (bcdDigits_toNat b))

end Sys2Proof.Machine
end

section
open Sys2Proof Sys2Proof.Machine Sys2Proof.Laws

/-- Settles O21: FX33 is one block write of the three digits. -/
theorem decimalDigitsAreStored : Obligations.DecimalDigitsAreStored := by
  intro x s
  refine ⟨EncodePattern.ldB x, fun hs haddr => ?_⟩
  have ha : s.dataAddr 0 + (bcdDigits (s.reg x)).length ≤ 4096 := by
    rw [bcdDigits_length]
    simp only [State.dataAddr] at haddr ⊢
    omega
  have hdigit : ∀ k < 3, ((s.mem.writeList (s.dataAddr 0) (bcdDigits (s.reg x))).read (s.dataAddr k)).toNat =
      [(s.reg x).toNat / 100, (s.reg x).toNat / 10 % 10, (s.reg x).toNat % 10].getD k 0 := fun k hk =>
    (congrArg BitVec.toNat (read_writeList_inside hs ha hk)).trans (bcdDigits_getD_toNat (s.reg x) k)
  exact ⟨_, exec_ldB_ok x haddr, hdigit 0 (by decide), hdigit 1 (by decide), hdigit 2 (by decide),
    keepsMemOutside_of_writeList hs ha rfl, fun _ _ => rfl, rfl, transferFrame_of_write s s.v _ s.i⟩

/-- Settles O22: FX55 is one block write of the registers, and one advance of I. -/
theorem registerBlockIsStored : Obligations.RegisterBlockIsStored := by
  intro x s
  refine ⟨EncodePattern.ldMemVx x, fun hs haddr => ?_⟩
  have hlength := regsUpTo_length s x
  have ha : s.dataAddr 0 + (s.regsUpTo x).length ≤ 4096 := by
    rw [hlength]
    simp only [State.dataAddr] at haddr ⊢
    omega
  refine ⟨_, exec_ldMemVx_ok x haddr, fun k hk => ?stored, ?outside, fun _ _ => rfl, advanced_index_toNat x haddr,
    transferFrame_of_write s s.v _ _⟩
  case stored => exact (read_writeList_inside hs ha (by omega)).trans (regsUpTo_getD s x hk)
  case outside => exact hlength ▸ keepsMemOutside_of_writeList hs ha rfl

/-- Settles O23: FX65 is one block read into the registers, and one advance of I. -/
theorem registerBlockIsLoaded : Obligations.RegisterBlockIsLoaded := by
  intro x s
  refine ⟨EncodePattern.ldVxMem x, fun haddr => ?_⟩
  have hreg := reg_block_loaded s x
  exact ⟨_, exec_ldVxMem_ok x haddr, fun k hk => (hreg k).trans (if_pos hk),
    fun k hk => (hreg k).trans (if_neg (Nat.not_le.mpr hk)), fun _ => rfl, advanced_index_toNat x haddr,
    transferFrame_of_write s _ s.mem _⟩

/-- Settles O25: both bytes of the fetch lie in the block FX55 wrote. -/
theorem storedBytesAreFetched : Obligations.StoredBytesAreFetched := by
  intro x k s t hs hexec hk hpc
  obtain ⟨haddr, -⟩ := exec_ldMemVx_next hexec
  obtain ⟨-, hstore⟩ := registerBlockIsStored x s
  obtain ⟨u, hu, hstored, -⟩ := hstore hs haddr
  obtain rfl := next_inj (hu.symm.trans hexec)
  have := x.isLt
  have hfetch : t.pc.toNat ≤ 0xFFE := by
    simp only [State.dataAddr] at haddr hpc
    omega
  rw [fetch_ok hfetch, hpc, ← hstored ⟨k, by omega⟩ (by simp only; omega), ← hstored ⟨k + 1, by omega⟩ hk]
  rfl

end

section
open Sys2Proof Sys2Proof.Machine Sys2Proof.Laws

/-- Settles O26: the clear display's pixels and bytes are 0, and it is all that 00E0 writes. -/
theorem clearScreenTurnsEveryPixelOff : Obligations.ClearScreenTurnsEveryPixelOff := fun _ =>
  ⟨EncodePattern.cls, _, rfl, fun cx _ cy _ => px_clearDisplay cx cy, fun _ hk => Vector.getElem_replicate hk,
    fun _ _ => rfl, rfl, rfl, fun _ => rfl, rfl, ⟨rfl, rfl⟩, ⟨rfl, rfl⟩, ⟨rfl, rfl⟩, rfl, rfl, rfl, rfl, rfl, rfl⟩

end

section
/-! SUPPORT. A completed DXYN in the words of the statements (43_display.md R182): its pixels and its collision. -/

namespace Sys2Proof.Machine

variable (x y : Reg) (n : BitVec 4) (s : State)

/-- A pixel is lit after a DXYN iff it was lit or has a sprite bit, but not both. -/
theorem px_drawnState {cx cy : Nat} (hx : cx < 64) (hy : cy < 32) : px (drawnState x y n s).display cx cy = true ↔
    ¬(px s.display cx cy = true ↔ spriteAt s x y n cx cy) := by
  rw [drawnState_display, px_blit _ _ _ (startRow_add_drawnBytes_length y n s) hx hy, ← rowsBit_drawnBytes s x y n hy,
    bne_iff_ne, ne_eq, Bool.eq_iff_iff]

/-- VF after a DXYN is the flag of a collision. -/
theorem flag_drawnState : (blit s.display (drawnBytes s y n) (startColumn (s.reg x)) (startRow (s.reg y))).2 = true ↔
    ∃ cx < 64, ∃ cy < 32, spriteAt s x y n cx cy ∧ px s.display cx cy = true := by
  rw [blit_flag _ _ _ (startRow_add_drawnBytes_length y n s)]
  refine exists_congr fun cx => and_congr_right fun _ => exists_congr fun cy => and_congr_right fun hy => ?_
  rw [rowsBit_drawnBytes s x y n hy]

theorem screenFrame_drawnState : ScreenFrame s (drawnState x y n s) :=
  ⟨rfl, rfl, fun _ => rfl, rfl, ⟨rfl, rfl⟩, ⟨rfl, rfl⟩, ⟨rfl, rfl⟩, rfl, rfl, rfl, rfl, rfl, rfl⟩

/-- A pixel with a sprite bit lies in the sprite's clipped rectangle (R184). -/
theorem inRectangle_of_spriteAt {cx cy : Nat} (hx : cx < 64) (hy : cy < 32) (h : spriteAt s x y n cx cy) :
    (s.reg x).toNat % 64 ≤ cx ∧ cx ≤ min ((s.reg x).toNat % 64 + 7) 63 ∧
      (s.reg y).toNat % 32 ≤ cy ∧ cy < min ((s.reg y).toNat % 32 + n.toNat) 32 := by
  obtain ⟨hleft, hright, htop, hbottom, -⟩ := h
  omega

end Sys2Proof.Machine
end

section
open Sys2Proof Sys2Proof.Machine Sys2Proof.Laws

/-- Settles O27: the compositor's pixels and flag, in the words of the statement. -/
theorem drawXorsSpriteAndReportsCollision : Obligations.DrawXorsSpriteAndReportsCollision := by
  intro x y n s
  refine ⟨EncodePattern.drw x y n, fun hsprite => ⟨_, exec_drw_ok x y n hsprite, fun cx hx cy hy => ?pixel,
    fun hhit => ?collision, fun hmiss => ?noCollision, fun q hq => ?others, screenFrame_drawnState x y n s⟩⟩
  case pixel => exact px_drawnState x y n s hx hy
  case collision =>
    rw [reg_VF_drawnState, flagByte_eq_one]
    exact (flag_drawnState x y n s).mpr hhit
  case noCollision =>
    rw [reg_VF_drawnState, flagByte_eq_zero, Bool.eq_false_iff]
    exact mt (flag_drawnState x y n s).mp hmiss
  case others => exact reg_drawnState x y n s (List.ne_of_not_mem_cons hq)

/-- Settles O29: only 00E0 and DXYN write the display, and DXYN changes a pixel only where a sprite bit falls. -/
theorem pixelsChangeOnlyInsideTheSprite : Obligations.PixelsChangeOnlyInsideTheSprite := by
  intro i s t cx cy hx hy h hchanged
  have hwriter := (exec_writesOwnElements h).display fun hkept => hchanged (by rw [hkept])
  refine hwriter.imp_right fun ⟨x, y, n, hi⟩ => ⟨x, y, n, hi, ?_⟩
  subst hi
  obtain ⟨-, rfl⟩ := exec_drw_next h
  refine inRectangle_of_spriteAt x y n s hx hy ?_
  by_contra hmiss
  apply hchanged
  rw [Bool.eq_iff_iff, px_drawnState x y n s hx hy]
  tauto

end

section
/-! SUPPORT. The host's transactions (44_keypad_timers.md, 70_reset_and_hazards.md): the keypad bit KEY_UP clears, what it
does to the latch, and what RESET leaves. -/

namespace Sys2Proof.Machine

variable {s t : State} {rest : List Transaction}

/-- KEY_UP clears its own bit of the keypad and keeps every other (R208). -/
theorem keyUp_keypad_bit (k j : Key) (s : State) :
    (keyUp k s).keypad.getLsbD j.val = (!decide (j = k) && s.keypad.getLsbD j.val) := by
  have hj : decide (j.val < 16) = true := decide_eq_true j.isLt
  rw [keyUp_keypad, BitVec.getLsbD_and, BitVec.getLsbD_not, hj, keyMask_bit, Bool.true_and, Bool.and_comm]

/-- RESET leaves the machine of the reset state (R262). -/
theorem sameMachine_resetMachine (s : State) : SameMachine State.reset (resetMachine s) :=
  ⟨fun _ _ => rfl, fun _ => rfl, rfl, rfl, ⟨rfl, rfl⟩, ⟨rfl, rfl⟩, fun _ _ _ _ => rfl, rfl, rfl⟩

/-- No transaction but RESET and STEP writes the display (10_state.md R31). -/
theorem step_keepsScreen {tr : Transaction} (hin : s.inbox = tr :: rest) (hreset : tr ≠ .reset) (hstep : ∀ r, tr ≠ .step r)
    (h : step s = .next t) : KeepsScreen s t := by
  cases tr with
  | reset => exact absurd rfl hreset
  | step r => exact absurd rfl (hstep r)
  | load rom =>
    obtain ⟨-, -, rfl⟩ := load_next (step_load hin ▸ h)
    exact fun _ _ _ _ => rfl
  | tick =>
    obtain ⟨⟨-, -, -, -, -, hscreen⟩, -⟩ := step_tick_frame hin h
    exact hscreen
  | keyDown k =>
    obtain ⟨⟨-, -, -, -, -, hscreen⟩, -⟩ := step_keyDown_frame hin h
    exact hscreen
  | keyUp k =>
    obtain ⟨⟨-, -, -, -, -, hscreen⟩, -⟩ := step_keyUp_frame hin h
    exact hscreen
  | displayRead =>
    obtain ⟨⟨-, -, -, -, -, hscreen⟩, -⟩ := step_displayRead_frame hin h
    exact hscreen

/-- A pixel of the display is a bit of one of its 256 bytes (10_state.md R30). -/
theorem px_eq_getElem (d : Display) {x y : Nat} (h : y * 8 + x / 8 < 256) :
    px d x y = d[y * 8 + x / 8].getLsbD (7 - x % 8) := by
  simp [px, pxByte, pxBit, h]

/-- An address past the font reads as 0 where nothing is written (10_state.md R34). -/
theorem unlisted_eq_zero {a : Nat} (h : 0x50 ≤ a) : Memory.unlisted a = 0#8 :=
  List.getD_eq_default _ _ h

end Sys2Proof.Machine
end

section
open Sys2Proof Sys2Proof.Machine

/-- Settles O33: a release moves the latch only from WANT_EVENT and only if the key was held. -/
theorem latchFollowsItsTransitionTable : Obligations.LatchFollowsItsTransitionTable := by
  intro s j rest
  refine ⟨fun hin => ⟨_, step_keyUp hin, ?_⟩, fun hin => ⟨_, step_keyDown hin, rfl⟩,
    fun hin => ⟨_, step_reset hin, rfl⟩⟩
  have hlatch : (keyUp j (withInbox rest s)).latch =
      if s.latch = .wantEvent ∧ s.keypad.getLsbD j.val = true then .key j else s.latch := latchOnRelease_eq j _ _
  rw [hlatch]
  refine ⟨fun hw hheld => if_pos ⟨hw, hheld⟩, fun hw hidle => ?_, fun hn => ?_, fun k hk => ?_⟩
  · rw [if_neg fun ⟨_, hheld⟩ => Bool.false_ne_true (hidle.symm.trans hheld), hw]
  · rw [if_neg (by simp [hn]), hn]
  · rw [if_neg (by simp [hk]), hk]

/-- Settles O36: the keypad loses key k's bit, the latch follows the release; the rest is KEY_UP's frame. -/
theorem keyUpClearsItsBitAndCaptures : Obligations.KeyUpClearsItsBitAndCaptures := by
  intro s k rest hin
  have hstep := step_keyUp hin
  obtain ⟨⟨hregs, hmem, hi, hpc, hstack, hscreen⟩, htimers⟩ := step_keyUp_frame hin hstep
  exact ⟨_, hstep, fun j => keyUp_keypad_bit k j (withInbox rest s), latchOnRelease_eq k _ _, hregs, hmem, hi, hpc, hstack,
    htimers, hscreen, rfl⟩

/-- Settles O37: the elements by evaluation, memory past the font by the font's length. -/
theorem resetStateHasTheResetValues : Obligations.ResetStateHasTheResetValues :=
  ⟨rfl, rfl, rfl, fun q => Vector.getElem_replicate q.isLt, rfl, rfl, rfl, rfl, fun _ hk => Vector.getElem_replicate hk,
    fun x _ y _ => px_clearDisplay x y, fun _ ha => unlisted_eq_zero ha, by decide⟩

/-- Settles O38: the machine is the reset state's, whatever it was. -/
theorem resetDiscardsEverything : Obligations.ResetDiscardsEverything := fun s rest hin =>
  ⟨_, step_reset hin, sameMachine_resetMachine (withInbox rest s), rfl, rfl⟩

/-- Settles O39: LOAD is one block write at 0x200, in its place and short enough; otherwise it is refused. -/
theorem loadCopiesTheImageOrIsRefused : Obligations.LoadCopiesTheImageOrIsRefused := by
  intro s rom rest hin
  rw [step_load hin]
  refine ⟨fun hs hlength hphase => ?copied, load_tooLong, fun hlength hphase => load_outOfOrder hlength hphase⟩
  case copied =>
    have ha : 0x200 + rom.length ≤ 4096 := by omega
    refine ⟨_, load_ok hlength hphase, fun k hk => ?_, keepsMemOutside_of_writeList hs ha rfl, fun _ _ => rfl, rfl, rfl,
      ⟨rfl, rfl⟩, ⟨rfl, rfl⟩, fun _ _ _ _ => rfl, ⟨rfl, rfl⟩, rfl, rfl⟩
    exact (read_writeList_inside hs ha hk).trans (List.getD_eq_getElem _ _ hk)

/-- Settles O40: the display is shown as it is, and its pixels are the bits of its bytes. -/
theorem displayReadReturnsTheBytes : Obligations.DisplayReadReturnsTheBytes := by
  intro s rest
  refine ⟨fun hin => ?shown, fun tr t hin hreset hstep h => step_keepsScreen hin hreset hstep h⟩
  case shown =>
    have hstep := step_displayRead hin
    obtain ⟨⟨hregs, hmem, hi, hpc, hstack, hscreen⟩, htimers, hkeys⟩ := step_displayRead_frame hin hstep
    refine ⟨_, s.display, hstep, rfl, fun x hx y hy => ?_, ⟨hregs, hmem, hi, hpc, hstack, htimers, hscreen, hkeys⟩, rfl⟩
    have hbyte : y * 8 + x / 8 < 256 := by omega
    exact ⟨hbyte, (px_eq_getElem s.display hbyte).symm⟩

end
